-- ==== Sys2Proof/Word.lean ====
section
/-! DEFINITION. The words of the TDF block (spec/00_scope.md R12, R13): exact-width bit vectors for what software and the
descriptor see as bits; integers of the kernel and of the address arithmetic are plain `Int` and `Nat` (R13: nothing wraps). -/

namespace Sys2Proof

/-- One sample, one byte of memory: `u8` (R13). -/
abbrev Byte := BitVec 8

/-- One of the eight 32-bit words of a descriptor (R65). -/
abbrev Word := BitVec 32

/-- A one-bit field: `MODE` (R22, R69). -/
abbrev Bit := BitVec 1

/-- A 256-bit command descriptor `DESC` (R12, R65). -/
abbrev Desc := BitVec 256

end Sys2Proof
end

