-- ==== Sys2Proof/Config.lean ====
section
/-! DEFINITION. What is fixed for the hardware: the parameters of spec/00_scope.md R9 to R11, the kernel's constants
`KCfg` (R10, R87), and the open values, which no source gives and the model does not choose. -/

namespace Sys2Proof

/-- The extent `W × H` of a block (R9, R110). -/
structure Extent where
  w : Nat
  h : Nat
  deriving DecidableEq, Repr

/-- `LUMA_W`, `LUMA_H` (R9). -/
def Config.luma : Extent := ⟨16, 16⟩

/-- `CHROMA_W`, `CHROMA_H` (R9): 8 for this hardware. -/
def Config.chroma : Extent := ⟨8, 8⟩

/-- `AW` (R11): the width of a byte address. Another width is a change here and of the descriptor's fields (D2). -/
abbrev Config.addressWidth : Nat := 32

/-- `MMW` (R11): the width of a motion magnitude. -/
abbrev Config.motionWidth : Nat := 32

/-- `SW` (R11): the width of a stride. -/
abbrev Config.strideWidth : Nat := 32

/-- A byte address: a base register or an address the host gives (R11, R22, R67). -/
abbrev Address := BitVec Config.addressWidth

/-- A stride in bytes, unsigned (R11, R22, R67). -/
abbrev Stride := BitVec Config.strideWidth

/-- A motion magnitude, unsigned (R11, R22, R67). -/
abbrev Motion := BitVec Config.motionWidth

/-- The number of bytes of `MEM`, `2^AW` (R40). -/
abbrev Config.addressSpace : Nat := 2 ^ Config.addressWidth

/-- What a byte of memory reads as that nothing has written. DESIGN CHOICE, unsafe (log entry 5). -/
def Config.unwrittenByte : Byte := 0

/-- One band of the kernel: its threshold `T[i]` and its two caps `CAP[0][i]`, `CAP[1][i]` (R10, R90, R91).
One threshold for both modes: P6 of R87 is structural. -/
structure Band where
  threshold    : Nat
  conservative : Nat
  aggressive   : Nat
  deriving DecidableEq, Repr

/-- The kernel's constants `KCfg` (R87): `MOTION_THRESHOLD` and the bands `0 … K-1` in order. P1 and P4 (the integers are
not negative) are structural. -/
structure KCfg where
  motionThreshold : Nat
  bands           : List Band
  deriving DecidableEq, Repr

/-- `K`, the number of thresholds (R10). -/
def KCfg.numBands (k : KCfg) : Nat := k.bands.length

/-- P2, P3 and P5 of R87: there is a band, the thresholds ascend strictly, and the aggressive cap of a band is at least
its conservative cap. -/
abbrev KCfg.Valid (k : KCfg) : Prop :=
  k.bands ≠ [] ∧
    k.bands.Pairwise (fun a b => a.threshold < b.threshold) ∧
      ∀ b ∈ k.bands, b.conservative ≤ b.aggressive

/-- The open numbers of one band: how far its threshold lies above the least value P3 allows it, its conservative cap, and
how much the aggressive cap exceeds that. -/
structure BandSeed where
  gap   : Nat
  cap   : Nat
  extra : Nat
  deriving DecidableEq, Repr, Inhabited

/-- Kernel constants written so that P1 to P6 hold whatever the numbers are (log entry 2). -/
structure KSeed where
  motionThreshold : Nat
  first           : BandSeed
  rest            : List BandSeed
  deriving DecidableEq, Repr, Inhabited

/-- The bands of a list of seeds, the first threshold at least `least`. -/
def bandsFrom (least : Nat) : List BandSeed → List Band
  | [] => []
  | b :: bs => ⟨least + b.gap, b.cap, b.cap + b.extra⟩ :: bandsFrom (least + b.gap + 1) bs

/-- The kernel constants of a seed; every `KCfg` that meets P1 to P6 is one of these. -/
def KSeed.toKCfg (k : KSeed) : KCfg := ⟨k.motionThreshold, bandsFrom 0 (k.first :: k.rest)⟩

/-- OPEN (R10, D10): the constants of the hardware. Nothing constrains them but P1 to P6. -/
opaque Config.kernelSeed : KSeed

/-- `MOTION_THRESHOLD`, `K`, `T`, `CAP` of the hardware (R10): open. -/
def Config.kernel : KCfg := Config.kernelSeed.toKCfg

/-- OPEN (R11, D24): how many instances there are beyond the first. -/
opaque Config.extraInstances : Nat

/-- `N_INST ≥ 1` (R11, R148): open. -/
def Config.nInst : Nat := Config.extraInstances + 1

end Sys2Proof
end

