-- ==== Sys2Proof/Syntax.lean ====
section
/-! DEFINITION. The commands (spec/42_filter_commands.md R130, R131): one constructor per row of spec/opcode_table.json.
The operands stand in the order of spec/10_state.md R22. -/

namespace Sys2Proof

/-- The instruction set: two commands (R1, R135). Every value of every operand is a command value (R67, R68); whether it
is within contract is R142's question. -/
inductive Instr where
  /-- `FLT.LUMA` (R130). -/
  | fltLuma (mode : Bit) (pb : Address) (ps : Stride) (ob : Address) (os : Stride) (sb : Address) (ss : Stride)
    (mm : Motion)
  /-- `FLT.CHROMA` (R131). -/
  | fltChroma (mode : Bit) (pb : Address) (ps : Stride) (ob : Address) (os : Stride) (sb : Address) (ss : Stride)
    (mm : Motion)
  deriving DecidableEq, Repr

end Sys2Proof
end

