-- ==== Sys2Proof/Machine/State.lean ====
section
/-! DEFINITION. The state of the whole machine (spec/10_state.md R32): memory, the instances, and, because a step takes a
state and nothing else, the parameters R32 lists beside them (log entry 1). Plain data throughout. -/

namespace Sys2Proof.Machine

open Sys2Proof

/-- `MEM` (R21, R40): the bytes that differ from what an unlisted byte reads as, addresses strictly rising. -/
abbrev Memory := List Host.Cell

/-- The nine command registers of one instance (R22). -/
structure CmdRegs where
  opc  : BitVec 8
  mode : Bit
  pb   : Address
  ps   : Stride
  ob   : Address
  os   : Stride
  sb   : Address
  ss   : Stride
  mm   : Motion
  deriving DecidableEq, Repr

/-- One block instance. The first four fields are R32's `(cmd, ROW, COL, ST)`; the last two are the host's side of the
instance's command interface. -/
structure Inst where
  /-- The command registers: none until the first accept after reset (R24, R32; log entry 6). -/
  cmd     : Option CmdRegs
  /-- `ROW` (R25). -/
  row     : BitVec 5
  /-- `COL` (R25). -/
  col     : BitVec 5
  /-- `STATUS`, whose one field is `ST` (R26). -/
  status  : BitVec 2
  /-- The descriptor that waits on `CMD`, at most one (R30; log entry 9). -/
  offered : Option Desc
  /-- The accepted commands whose footprints the host has not got back, since it has not read `ST = DONE` (R164; log
  entry 10). A reset leaves them (R160 and R170 give none back). -/
  handed  : List CmdRegs
  deriving DecidableEq, Repr

/-- An instance after reset (R33, R160). -/
def Inst.reset : Inst := ⟨none, 0#5, 0#5, 0b00#2, none, []⟩

/-- A range of allocated ordinary memory: `size` bytes from `base` (R41, R50). -/
structure Region where
  base : Nat
  size : Nat
  deriving DecidableEq, Repr

/-- The parameters of the step relation, not state (R32): no transition changes them (log entry 1). -/
structure Params where
  /-- `MOTION_THRESHOLD`, `K`, `T`, `CAP` (R10, R87). -/
  kernel : KCfg
  /-- The addresses the host has allocated (R50). -/
  alloc  : List Region
  deriving DecidableEq, Repr

/-- One transition (R32) or one action of the host (R170). -/
inductive Event where
  /-- The host puts a descriptor on the `CMD` interface of instance `n` (R30). -/
  | offer (n : Nat) (d : Desc)
  /-- The host withdraws the waiting descriptor (R30). -/
  | withdraw (n : Nat)
  /-- `accept(n, DESC)` of the waiting descriptor (R30). -/
  | accept (n : Nat)
  /-- `pixel(n)` (R115). -/
  | pixel (n : Nat)
  /-- `reset(n)` (R160). -/
  | reset (n : Nat)
  /-- The host reads `STATUS` of instance `n` (R26). -/
  | readStatus (n : Nat)
  /-- The host reads a byte of `MEM` (R170). -/
  | hostRead (a : Address)
  /-- The host writes a byte of `MEM` (R170). -/
  | hostWrite (a : Address) (v : Byte)
  deriving DecidableEq, Repr

/-- What a read by the host returned (log entry 13). -/
inductive HostView where
  | status (n : Nat) (v : BitVec 2)
  | byte (a : Address) (v : Byte)
  deriving DecidableEq, Repr

/-- The state of the machine (R32). -/
structure State where
  /-- `MEM` (R21). -/
  mem    : Memory
  /-- The instances `0 … N_INST-1` (R20, R148). -/
  insts  : List Inst
  /-- The constants and the allocated set (R32). -/
  params : Params
  /-- The host actions and transitions still to come, next first (R32, R148; log entry 7). -/
  agenda : List Event
  /-- The model's own: the instance at whose `CMD` interface the transaction in progress takes place (log entry 8). -/
  sel    : Nat
  /-- The model's own: what the host's last read returned (log entry 13). -/
  seen   : Option HostView
  deriving DecidableEq, Repr

/-- Why a step stops outside the hardware: the spec describes no such event. All three are safe. -/
inductive Fault where
  /-- Raised by any event, and by exec, that names an instance `≥ N_INST` (R148 numbers them `0 … N_INST-1`). Safe. -/
  | noInstance
  /-- Raised by a pixel step of a BUSY instance that holds no command or whose counters lie outside the block. R25 and
  R30 exclude it, and the invariant `State.Inv` says that no run reaches it. Safe. -/
  | iteratorLost
  /-- Raised by an access of the host, or of a pixel step, to a byte that is not allocated ordinary memory (R41, R50).
  For a pixel step R142's CV5 excludes it, and the invariant says that no run reaches it. Safe. -/
  | unallocated
  deriving DecidableEq, Repr

/-- The closed list of refusal reasons of spec/93_implementation_defined.md (R142, R143, R161), each safe: the spec gives
the event no meaning. `notModelled` is the host's. -/
inductive Refusal where
  /-- An instruction without a meaning; no arm of exec answers so. Safe. -/
  | notModelled (mnemonic : String)
  /-- Raised by an offer or an accept of a descriptor that is not well formed (R71, R142). Safe. -/
  | cv1
  /-- Raised by accept: a stride is smaller than the block width (R142). Safe. -/
  | cv2
  /-- Raised by accept: a footprint passes the top of the address space (R142). Safe. -/
  | cv3
  /-- Raised by accept: two footprints of the command intersect (R60, R142). Safe. -/
  | cv4
  /-- Raised by accept: a footprint address is not allocated (R50, R142). Safe. -/
  | cv5
  /-- Raised by a host access to a byte of a footprint that is handed over (R142, R164). Safe. -/
  | cv6
  /-- Raised by accept: the command's footprints conflict with those of another instance's command (R55, R142). Safe. -/
  | cv7
  /-- Raised by a reset of a BUSY instance (R161). Safe. -/
  | rstBusy
  deriving DecidableEq, Repr

/-- The outcome of a transition. -/
abbrev Result := Host.Outcome State Fault Refusal

/-- The machine right after reset (R33, R160): every instance idle, memory with nothing listed, nothing on the agenda. The
constants are the open ones of Config, the whole space is allocated (log entry 4). -/
def State.reset : State where
  mem    := []
  insts  := List.replicate Config.nInst Inst.reset
  params := ⟨Config.kernel, [⟨0, Config.addressSpace⟩]⟩
  agenda := []
  sel    := 0
  seen   := none

end Sys2Proof.Machine
end

