-- ==== Sys2Proof/Machine/Flags.lean ====
section
/-! DEFINITION. The status flags (spec/10_state.md R26): the codes of `ST` and the two derived flags. There is no other
flag: the kernel's classification of a pixel is local to one pixel step. -/

namespace Sys2Proof.Machine

open Sys2Proof

/-- `ST = IDLE`: no command accepted since reset (R26). -/
abbrev stIdle : BitVec 2 := 0b00#2

/-- `ST = BUSY`: a command is accepted and a pixel step is still to come (R26). -/
abbrev stBusy : BitVec 2 := 0b01#2

/-- `ST = DONE`: the last accepted command has performed all its writes (R26). -/
abbrev stDone : BitVec 2 := 0b10#2

/-- The derived flag `BUSY` (R26). -/
def Inst.isBusy (I : Inst) : Bool := I.status == stBusy

/-- The derived flag `DONE` (R26). -/
def Inst.isDone (I : Inst) : Bool := I.status == stDone

end Sys2Proof.Machine
end

