-- ==== Sys2Proof/WellFormed.lean ====
section
/-! DEFINITION. Well-formed descriptors (spec/30_encoding.md R70), checked by the match and mask of R68 over `W0`, the only
word that takes part in decoding. -/

namespace Sys2Proof

/-- `W0 = DESC[31:0]` (R65). -/
def Desc.w0 (d : Desc) : Word := d.extractLsb' 0 32

/-- The mask of R68: every bit of `W0` but `MODE`. -/
def Desc.w0Mask : Word := 0xFFFFFEFF#32

/-- `OPC ∈ {0x01, 0x02}` (R70). -/
def Desc.opcodeDefined (d : Desc) : Bool :=
  (Desc.w0 d &&& 0xFF#32) == 0x01#32 || (Desc.w0 d &&& 0xFF#32) == 0x02#32

/-- `RSV0 = DESC[31:9] = 0` (R70). -/
def Desc.reservedZero (d : Desc) : Bool := (Desc.w0 d &&& 0xFFFFFE00#32) == 0#32

/-- The descriptor is well formed (R70). -/
def Desc.wellFormed (d : Desc) : Bool := Desc.opcodeDefined d && Desc.reservedZero d

/-- The opcode table's row test: the descriptor matches `FLT.LUMA` (R68). -/
def Desc.matchesLuma (d : Desc) : Bool := (Desc.w0 d &&& Desc.w0Mask) == 0x00000001#32

/-- The opcode table's row test: the descriptor matches `FLT.CHROMA` (R68). -/
def Desc.matchesChroma (d : Desc) : Bool := (Desc.w0 d &&& Desc.w0Mask) == 0x00000002#32

end Sys2Proof
end

