-- ==== Sys2Proof/Decode.lean ====
section
/-! DEFINITION. The decoder and the encoder of format `D256` (spec/30_encoding.md R65 to R71). -/

namespace Sys2Proof

/-- The operand field of `w` bits in the descriptor's word `Wi = DESC[32·i+31 : 32·i]` (R65 to R67). -/
def descField (d : Desc) (i w : Nat) : BitVec w := d.extractLsb' (32 * i) w

/-- `PRED_BASE`, `OUT_BASE` or `SRC_BASE`, in word `Wi` (R66). -/
def descBase (d : Desc) (i : Nat) : Address := descField d i Config.addressWidth

/-- `PRED_STRIDE`, `OUT_STRIDE` or `SRC_STRIDE`, in word `Wi` (R66). -/
def descStride (d : Desc) (i : Nat) : Stride := descField d i Config.strideWidth

/-- `MOTION_MAG`, in word `W7` (R66). -/
def descMotion (d : Desc) : Motion := descField d 7 Config.motionWidth

/-- `OPC = DESC[7:0]` (R66). -/
def descOpcode (d : Desc) : BitVec 8 := d.extractLsb' 0 8

/-- `MODE = DESC[8]` (R66). -/
def descMode (d : Desc) : Bit := d.extractLsb' 8 1

/-- `RSV0 = DESC[31:9]` (R66). -/
def descReserved (d : Desc) : BitVec 23 := d.extractLsb' 9 23

/-- Why a descriptor encodes no command (R71); both are contract violation CV1. -/
inductive DecodeError where
  /-- A bit of `RSV0` is set. -/
  | reservedBits
  /-- `OPC` is `0x00` or one of `0x03 … 0xFF`. -/
  | reservedOpcode
  deriving DecidableEq, Repr

/-- The total decoder of R70. -/
def decode (d : Desc) : Except DecodeError Instr :=
  if descReserved d ≠ 0#23 then .error .reservedBits
  else if descOpcode d = 0x01#8 then
    .ok (.fltLuma (descMode d) (descBase d 1) (descStride d 2) (descBase d 3) (descStride d 4) (descBase d 5)
      (descStride d 6) (descMotion d))
  else if descOpcode d = 0x02#8 then
    .ok (.fltChroma (descMode d) (descBase d 1) (descStride d 2) (descBase d 3) (descStride d 4) (descBase d 5)
      (descStride d 6) (descMotion d))
  else .error .reservedOpcode

/-- The control word and the operand fields of a descriptor laid side by side, `W7` most significant (R65, R66, R76). -/
def descOfFields (w0 : Word) (pb : Address) (ps : Stride) (ob : Address) (os : Stride) (sb : Address) (ss : Stride)
    (mm : Motion) : Desc := mm ++ (ss ++ (sb ++ (os ++ (ob ++ (ps ++ (pb ++ w0))))))

/-- `W0` of a command: `RSV0 = 0`, then `MODE`, then `OPC` (R66, R70). -/
def controlWord (opc : BitVec 8) (mode : Bit) : Word := 0#23 ++ (mode ++ opc)

/-- The encoder of R70. -/
def encode : Instr → Desc
  | .fltLuma mode pb ps ob os sb ss mm => descOfFields (controlWord 0x01#8 mode) pb ps ob os sb ss mm
  | .fltChroma mode pb ps ob os sb ss mm => descOfFields (controlWord 0x02#8 mode) pb ps ob os sb ss mm

/-- The descriptor whose low `nbits` bits are those of `w` and whose other bits are 0. -/
def descOfTableWord (nbits w : Nat) : Desc := BitVec.ofNat 256 (w % 2 ^ nbits)

/-- What the decoder reads from an instruction given as a number, numbered as spec/opcode_table.json numbers it. A
descriptor is a bit vector on the command interface, not bytes in memory (R43), so its bits are taken as they stand. -/
def decodeTableWord (nbits w : Nat) : Option Instr := (decode (descOfTableWord nbits w)).toOption

end Sys2Proof
end

