-- ==== Sys2Proof/Machine/Operands.lean ====
section
/-! DEFINITION. The operands of a command: its register values, its extent, its one addressing mode and its footprints
(spec/10_state.md R22, R23; spec/41_block_iterator.md R110, R112; spec/20_memory.md R42, R59). -/

namespace Sys2Proof.Machine

open Sys2Proof

/-- The register values a command loads: each from the descriptor field of the same name (R22, R30). -/
def cmdRegsOf : Instr → CmdRegs
  | .fltLuma mode pb ps ob os sb ss mm => ⟨0x01#8, mode, pb, ps, ob, os, sb, ss, mm⟩
  | .fltChroma mode pb ps ob os sb ss mm => ⟨0x02#8, mode, pb, ps, ob, os, sb, ss, mm⟩

/-- The block extent, a function of `OPC` (R23). An opcode that names no command has no positions; no accept loads one. -/
def extentOf (opc : BitVec 8) : Extent :=
  if opc = 0x01#8 then Config.luma else if opc = 0x02#8 then Config.chroma else ⟨0, 0⟩

/-- One pixel buffer of a command: base, stride and extent (R15), as the integers the registers denote. -/
structure Footprint where
  base   : Nat
  stride : Nat
  extent : Extent
  deriving DecidableEq, Repr

/-- The one addressing mode: base plus row times stride plus column, in the integers (R42, R112). -/
def Footprint.addr (f : Footprint) (r c : Nat) : Nat := f.base + r * f.stride + c

/-- `FP(B, S, W, H)`, row by row (R15, R59). -/
def Footprint.addresses (f : Footprint) : List Nat :=
  (List.range f.extent.h).flatMap fun r => (List.range f.extent.w).map fun c => f.addr r c

/-- Whether an address is one of the footprint's: it lies in one of the rows. -/
def Footprint.contains (f : Footprint) (a : Nat) : Bool :=
  (List.range f.extent.h).any fun r => decide (f.addr r 0 ≤ a) && decide (a < f.addr r f.extent.w)

/-- Whether two footprints share an address (R60). -/
def Footprint.intersects (f g : Footprint) : Bool := f.addresses.any g.contains

/-- The extent of the command in the registers (R23). -/
def CmdRegs.extent (c : CmdRegs) : Extent := extentOf c.opc

/-- `FP_P` (R59). -/
def CmdRegs.pred (c : CmdRegs) : Footprint := ⟨c.pb.toNat, c.ps.toNat, c.extent⟩

/-- `FP_O` (R59). -/
def CmdRegs.out (c : CmdRegs) : Footprint := ⟨c.ob.toNat, c.os.toNat, c.extent⟩

/-- `FP_S` (R59). -/
def CmdRegs.src (c : CmdRegs) : Footprint := ⟨c.sb.toNat, c.ss.toNat, c.extent⟩

/-- Whether an address is one of the command's three footprints'. -/
def CmdRegs.touches (c : CmdRegs) (a : Nat) : Bool := c.pred.contains a || c.out.contains a || c.src.contains a

/-- A `PixelBlock` argument of the source's call: base and row stride (R15, R75). -/
structure PixelBuffer where
  base   : Address
  stride : Stride
  deriving DecidableEq, Repr

/-- The pseudo-form `filter_luma(prediction, output, source, motion_magnitude, mode)` (R75). -/
def filterLuma (prediction output source : PixelBuffer) (motionMagnitude : Motion) (mode : Bool) : Instr :=
  .fltLuma (BitVec.ofBool mode) prediction.base prediction.stride output.base output.stride source.base source.stride
    motionMagnitude

/-- The pseudo-form `filter_chroma(prediction, output, source, motion_magnitude, mode)` (R75). -/
def filterChroma (prediction output source : PixelBuffer) (motionMagnitude : Motion) (mode : Bool) : Instr :=
  .fltChroma (BitVec.ofBool mode) prediction.base prediction.stride output.base output.stride source.base source.stride
    motionMagnitude

end Sys2Proof.Machine
end

