-- ==== Sys2Proof/Machine/Ops.lean ====
section
/-! DEFINITION. The named operations over memory and the instances (spec/00_scope.md R14; spec/20_memory.md). There is no
operation that takes an exception: the hardware raises none and saves nothing anywhere (spec/60_exceptions.md R140, R146). -/

namespace Sys2Proof.Machine

open Sys2Proof

/-- `MemRead(addr, 1)` (R14). -/
def Memory.read : Memory → Nat → Byte
  | [], _ => Config.unwrittenByte
  | (b, v) :: m, a => if a = b then v else Memory.read m a

/-- `MemWrite(addr, 1, v)` (R14). Writing what an unlisted byte reads as removes the entry. -/
def Memory.write : Memory → Nat → Byte → Memory
  | [], a, v => if v = Config.unwrittenByte then [] else [(a, v)]
  | (b, w) :: m, a, v =>
    if a < b then if v = Config.unwrittenByte then (b, w) :: m else (a, v) :: (b, w) :: m
    else if a = b then if v = Config.unwrittenByte then m else (a, v) :: m
    else (b, w) :: Memory.write m a v

/-- The canonical form: addresses strictly rising, no entry equal to what an unlisted byte reads as. -/
abbrev Memory.wf (m : Memory) : Prop :=
  m.Pairwise (fun x y => x.1 < y.1) ∧ ∀ x ∈ m, x.2 ≠ Config.unwrittenByte

/-- Every listed address lies in the address space (R40). -/
abbrev Memory.inSpace (m : Memory) : Prop := ∀ x ∈ m, x.1 < Config.addressSpace

/-- Whether an address is in an allocated region (R50). -/
def Params.allocated (p : Params) (a : Nat) : Bool :=
  p.alloc.any fun g => decide (g.base ≤ a) && decide (a < g.base + g.size)

/-- Whether an access to the address succeeds: it is in the address space and allocated (R40, R50). -/
def Params.accessible (p : Params) (a : Nat) : Bool := decide (a < Config.addressSpace) && p.allocated a

/-- The byte at an address. -/
def State.readByte (s : State) (a : Nat) : Byte := s.mem.read a

/-- The state with one byte of memory written. -/
def State.writeByte (s : State) (a : Nat) (v : Byte) : State := { s with mem := s.mem.write a v }

/-- The state with instance `n` replaced. -/
def State.setInst (s : State) (n : Nat) (I : Inst) : State := { s with insts := s.insts.set n I }

/-- An operation on instance `n`, which must exist (R148). -/
def State.withInst (s : State) (n : Nat) (f : Inst → Result) : Result :=
  match s.insts[n]? with
  | none => .fault .noInstance
  | some I => f I

end Sys2Proof.Machine
end

