-- ==== Sys2Proof/Machine/Contract.lean ====
section
/-! DEFINITION. The contract violations CV1 to CV7 (spec/60_exceptions.md R142 to R144) and what the host has handed over
(spec/70_reset_and_hazards.md R164). -/

namespace Sys2Proof.Machine

open Sys2Proof

/-- CV2: a stride is smaller than the block width. -/
def CmdRegs.strideShort (c : CmdRegs) : Bool :=
  decide (c.ps.toNat < c.extent.w) || decide (c.os.toNat < c.extent.w) || decide (c.ss.toNat < c.extent.w)

/-- `B + (H−1)·S + (W−1) ≥ 2^AW` (CV3, for one buffer). -/
def Footprint.passesTop (f : Footprint) : Bool :=
  decide (Config.addressSpace ≤ f.addr (f.extent.h - 1) (f.extent.w - 1))

/-- CV3: a footprint passes the top of the address space. -/
def CmdRegs.passesTop (c : CmdRegs) : Bool := c.pred.passesTop || c.out.passesTop || c.src.passesTop

/-- CV4: two of the three footprints intersect (R60). -/
def CmdRegs.selfOverlap (c : CmdRegs) : Bool :=
  c.pred.intersects c.out || c.pred.intersects c.src || c.out.intersects c.src

/-- CV5: a footprint address is not allocated ordinary memory. -/
def CmdRegs.notAllocated (c : CmdRegs) (p : Params) : Bool :=
  c.pred.addresses.any (fun a => !p.allocated a) || c.out.addresses.any (fun a => !p.allocated a) ||
    c.src.addresses.any (fun a => !p.allocated a)

/-- The footprints of two commands conflict: one writes what the other reads or writes. Two `prediction` footprints may
intersect (R55). -/
def CmdRegs.conflicts (c d : CmdRegs) : Bool :=
  c.out.intersects d.out || c.out.intersects d.src || c.out.intersects d.pred || c.src.intersects d.out ||
    c.src.intersects d.src || c.src.intersects d.pred || c.pred.intersects d.out || c.pred.intersects d.src

/-- The command that waits on the interface. -/
def Inst.waiting (I : Inst) : List CmdRegs :=
  match I.offered with
  | none => []
  | some d =>
    match decode d with
    | .ok i => [cmdRegsOf i]
    | .error _ => []

/-- The command in flight. -/
def Inst.running (I : Inst) : List CmdRegs := if I.isBusy then I.cmd.toList else []

/-- The commands whose footprints the host has handed to this instance and not got back: from the offer until it has read
`ST = DONE` (R164; log entry 10). A descriptor that no longer waits and was not accepted holds nothing. DESIGN CHOICE, unsafe
(log entry 16). -/
def Inst.held (I : Inst) : List CmdRegs := I.waiting ++ I.running ++ I.handed

/-- CV6: the address is a byte of a footprint that is handed over (R54, R142, R164). -/
def State.isHeld (s : State) (a : Nat) : Bool := s.insts.any fun I => I.held.any fun c => c.touches a

/-- CV7: another instance than `n` holds a command that conflicts with `c` (R55, R142). -/
def State.races (s : State) (n : Nat) (c : CmdRegs) : Bool :=
  s.insts.zipIdx.any fun x => decide (x.2 ≠ n) && x.1.held.any fun d => d.conflicts c

/-- CV2 to CV5 and CV7 for a command that instance `n` is about to accept: the first that applies, in numeric order
(R144). CV1 is the decoder's, CV6 the host's. -/
def contractBreach (s : State) (n : Nat) (c : CmdRegs) : Option Refusal :=
  if c.strideShort then some .cv2
  else if c.passesTop then some .cv3
  else if c.selfOverlap then some .cv4
  else if c.notAllocated s.params then some .cv5
  else if s.races n c then some .cv7
  else none

end Sys2Proof.Machine
end

