-- ==== Sys2Proof/Machine/Filter.lean ====
section
/-! DEFINITION. The two commands (spec/42_filter_commands.md R130, R131) at the command interface: the accept transition of
spec/10_state.md R30. Their pixel steps are `pixelStep` (spec/41_block_iterator.md R115), which step performs afterwards. -/

namespace Sys2Proof.Machine

open Sys2Proof

/-- An instance that has just accepted the command in `g` (R30). -/
def Inst.accepted (I : Inst) (g : CmdRegs) : Inst :=
  { cmd := some g, row := 0#5, col := 0#5, status := stBusy, offered := none, handed := g :: I.handed }

/-- The accept transition at instance `s.sel` (R30): while BUSY the descriptor waits and nothing changes; a command outside
its contract is refused (R143); otherwise all nine registers are loaded at once and `ST` becomes BUSY. -/
def acceptCommand (g : CmdRegs) (s : State) : Result :=
  s.withInst s.sel fun I =>
    if I.isBusy then .next s
    else
      match contractBreach s s.sel g with
      | some reason => .refused reason
      | none => .next (s.setInst s.sel (I.accepted g))

/-- `FLT.LUMA` (R130): accept a 16×16 command. -/
def execFltLuma (mode : Bit) (pb : Address) (ps : Stride) (ob : Address) (os : Stride) (sb : Address) (ss : Stride)
    (mm : Motion) (s : State) : Result :=
  acceptCommand (cmdRegsOf (.fltLuma mode pb ps ob os sb ss mm)) s

/-- `FLT.CHROMA` (R131): accept an 8×8 command. -/
def execFltChroma (mode : Bit) (pb : Address) (ps : Stride) (ob : Address) (os : Stride) (sb : Address) (ss : Stride)
    (mm : Motion) (s : State) : Result :=
  acceptCommand (cmdRegsOf (.fltChroma mode pb ps ob os sb ss mm)) s

end Sys2Proof.Machine
end

