-- ==== Sys2Proof/Machine/Dispatch.lean ====
section
/-! DEFINITION. The instruction dispatch: one arm per command. -/

namespace Sys2Proof.Machine

open Sys2Proof

def exec (i : Instr) (s : State) : Host.Outcome State Fault Refusal :=
  match i with
  | .fltLuma mode pb ps ob os sb ss mm => Sys2Proof.Machine.execFltLuma mode pb ps ob os sb ss mm s
  | .fltChroma mode pb ps ob os sb ss mm => Sys2Proof.Machine.execFltChroma mode pb ps ob os sb ss mm s

end Sys2Proof.Machine
end

