-- ==== Sys2Proof/Machine/HostPort.lean ====
section
/-! DEFINITION. What the host does to the machine (spec/70_reset_and_hazards.md R170): offer and withdraw a descriptor,
read STATUS, reset, read and write MEM; and the fetch of a waiting descriptor. -/

namespace Sys2Proof.Machine

open Sys2Proof

/-- The host offers a descriptor to instance `n` (R30). An ill-formed one is CV1 (R71). It takes the place of one that waits
(log entry 9), whose footprints are the host's again at once. DESIGN CHOICE, unsafe (log entry 16). -/
def offerDescriptor (n : Nat) (d : Desc) (s : State) : Result :=
  s.withInst n fun I =>
    match decode d with
    | .error _ => .refused .cv1
    | .ok _ => .next (s.setInst n { I with offered := some d })

/-- The host withdraws the descriptor that waits at instance `n` (R30). Its footprints are the host's again at once, as they
are when a later offer takes its place. DESIGN CHOICE, unsafe (log entry 16): R164 names the read of DONE alone as the end
of a hand-over. -/
def withdrawDescriptor (n : Nat) (s : State) : Result :=
  s.withInst n fun I => .next (s.setInst n { I with offered := none })

/-- The state in which the transaction at instance `n` takes place. -/
def State.select (s : State) (n : Nat) : State := { s with sel := n }

/-- What the fetch of a waiting descriptor gives. -/
inductive Fetched where
  /-- A command, to be executed. -/
  | command (i : Instr)
  /-- Nothing waits: the accept transition is not enabled. -/
  | nothing
  /-- The waiting descriptor is not well formed: CV1. -/
  | illFormed
  /-- There is no such instance. -/
  | missing
  deriving DecidableEq, Repr

/-- Read the descriptor that waits at instance `n` and decode it (R30, R57, R70). -/
def fetchCommand (n : Nat) (s : State) : Fetched :=
  match s.insts[n]? with
  | none => .missing
  | some I =>
    match I.offered with
    | none => .nothing
    | some d =>
      match decode d with
      | .ok i => .command i
      | .error _ => .illFormed

/-- `reset(n)` (R160); of a BUSY instance it is refused (R161). A reset gives no footprint back: only the read of DONE does
(R164, R170). What waits on the interface stays (log entry 11). -/
def resetInst (n : Nat) (s : State) : Result :=
  s.withInst n fun I =>
    if I.isBusy then .refused .rstBusy else .next (s.setInst n { Inst.reset with offered := I.offered, handed := I.handed })

/-- The host reads `STATUS` of instance `n` (R26). Reading DONE gives the host its footprints back (R164, R170). -/
def readStatus (n : Nat) (s : State) : Result :=
  s.withInst n fun I =>
    .next { s.setInst n { I with handed := if I.isDone then [] else I.handed } with seen := some (.status n I.status) }

/-- The host reads a byte of `MEM` (R170): refused if it is handed over (CV6). -/
def hostRead (a : Address) (s : State) : Result :=
  if s.isHeld a.toNat then .refused .cv6
  else if s.params.accessible a.toNat then .next { s with seen := some (.byte a (s.readByte a.toNat)) }
  else .fault .unallocated

/-- The host writes a byte of `MEM` (R170): refused if it is handed over (CV6). -/
def hostWrite (a : Address) (v : Byte) (s : State) : Result :=
  if s.isHeld a.toNat then .refused .cv6
  else if s.params.accessible a.toNat then .next (s.writeByte a.toNat v)
  else .fault .unallocated

/-- The first BUSY instance. -/
def State.firstBusy (s : State) : Option Nat := s.insts.findIdx? Inst.isBusy

/-- The first instance at which a descriptor waits. -/
def State.firstWaiting (s : State) : Option Nat := s.insts.findIdx? fun I => I.offered.isSome

/-- What happens next when the agenda is empty: a BUSY instance takes its pixel step (R117), else a waiting descriptor is
accepted (R30), else nothing is enabled (log entry 7). -/
def State.enabled (s : State) : Option Event :=
  match s.firstBusy with
  | some n => some (.pixel n)
  | none =>
    match s.firstWaiting with
    | some n => some (.accept n)
    | none => none

/-- The next transition and the state in which it takes place: the agenda's next entry, else what is enabled. -/
def State.upcoming (s : State) : Option Event × State :=
  match s.agenda with
  | e :: rest => (some e, { s with agenda := rest })
  | [] => (s.enabled, s)

/-- The synchronous call of R75 on instance `n`: offer, accept, every pixel step, and the read of `STATUS` that gives the
buffers back. -/
def synchronousCall (n : Nat) (i : Instr) : List Event :=
  .offer n (encode i) :: .accept n ::
    (List.replicate ((cmdRegsOf i).extent.w * (cmdRegsOf i).extent.h) (.pixel n) ++ [.readStatus n])

/-- The state in which the descriptor waits at instance 0 and its acceptance is the next transition: how a command comes to
run (log entry 14). -/
def placeDescriptor (d : Desc) (s : State) : State :=
  { s with
    agenda := .accept 0 :: s.agenda
    insts := s.insts.modify 0 fun I => { I with offered := some d } }

end Sys2Proof.Machine
end

