-- ==== Sys2Proof/Machine/Kernel.lean ====
section
/-! DEFINITION. The kernel (spec/40_pixel_rule.md R85 to R95): one definition, shared by both commands (R3, R97). -/

namespace Sys2Proof.Machine

open Sys2Proof

/-- `T[i]` (R10); 0 beyond the last threshold, where no rule reads it. -/
def kernelThreshold (k : KCfg) (i : Nat) : Nat := (k.bands[i]?.map Band.threshold).getD 0

/-- `CAP[mode][b]` (R91); 0 beyond the last band, where no rule looks it up. -/
def kernelCap (k : KCfg) (mode : Bit) (b : Nat) : Nat :=
  (k.bands[b]?.map fun x => if mode = 1#1 then x.aggressive else x.conservative).getD 0

/-- The motion gate (R88): a strict comparison of unsigned integers. -/
def gated (k : KCfg) (mm : Motion) : Bool := decide (k.motionThreshold < mm.toNat)

/-- `diff = p − s` in the integers (R89). -/
def pixelDiff (p s : Byte) : Int := (p.toNat : Int) - (s.toNat : Int)

/-- `band(a)`: the least `i` with `a ≤ T[i]`, or `K` if there is none (R90). -/
def bandOf (k : KCfg) (a : Nat) : Nat := k.bands.findIdx fun x => decide (a ≤ x.threshold)

/-- The correction magnitude `m` (R92). -/
def magnitude (k : KCfg) (mode : Bit) (a : Nat) : Nat :=
  if bandOf k a = k.numBands then 0 else min a (kernelCap k mode (bandOf k a))

/-- The signed correction `c` (R93). -/
def correction (k : KCfg) (mode : Bit) (p s : Byte) : Int :=
  if pixelDiff p s < 0 then -(magnitude k mode (pixelDiff p s).natAbs : Int)
  else (magnitude k mode (pixelDiff p s).natAbs : Int)

/-- `clamp255` (R13, R94): saturating. -/
def clamp255 (x : Int) : Byte := BitVec.ofNat 8 (max 0 (min 255 x)).toNat

/-- The corrected value `v` (R94). -/
def corrected (k : KCfg) (mode : Bit) (p s : Byte) : Byte := clamp255 ((s.toNat : Int) + correction k mode p s)

/-- What the kernel answers for one pixel (R85). -/
structure PixelResult where
  /-- `out`, the value to store into `output`. -/
  out     : Byte
  /-- `src_next`, the value the `source` sample has afterwards. -/
  srcNext : Byte
  /-- `wr_src`, whether a write to the `source` address is issued. -/
  wrSrc   : Bool
  deriving DecidableEq, Repr

/-- `PixelRule(p, s, mm, mode)` (R85, R88, R95). -/
def pixelRule (k : KCfg) (p s : Byte) (mm : Motion) (mode : Bit) : PixelResult :=
  if gated k mm then ⟨s, s, false⟩ else ⟨corrected k mode p s, corrected k mode p s, true⟩

end Sys2Proof.Machine
end

