-- ==== Sys2Proof/Machine/Iterator.lean ====
section
/-! DEFINITION. The block iterator (spec/41_block_iterator.md R111 to R116): the pixel step. -/

namespace Sys2Proof.Machine

open Sys2Proof

/-- The raster advance of `(ROW, COL)` after the pixel at `(r, c)`, with `ST ← DONE` after the last one (R25, R115). -/
def Inst.advance (I : Inst) (e : Extent) (r c : Nat) : Inst :=
  if c + 1 < e.w then { I with col := BitVec.ofNat 5 (c + 1) }
  else if r + 1 < e.h then { I with col := 0#5, row := BitVec.ofNat 5 (r + 1) }
  else { I with col := 0#5, row := 0#5, status := stDone }

/-- The memory after the pixel at `(r, c)` of command `g`: both reads, then the write of `output`, then, unless gated, the
write of `source` (R45, R51, R115). -/
def pixelMemory (k : KCfg) (g : CmdRegs) (r c : Nat) (m : Memory) : Memory :=
  let res := pixelRule k (m.read (g.pred.addr r c)) (m.read (g.src.addr r c)) g.mm g.mode
  let m' := m.write (g.out.addr r c) res.out
  if res.wrSrc then m'.write (g.src.addr r c) res.srcNext else m'

/-- Whether the three bytes of the pixel at `(r, c)` can be accessed (R50). -/
def pixelAccessible (p : Params) (g : CmdRegs) (r c : Nat) : Bool :=
  p.accessible (g.pred.addr r c) && p.accessible (g.src.addr r c) && p.accessible (g.out.addr r c)

/-- The pixel step of command `g` on the instance `I`, which is number `n` and BUSY (R115). -/
def pixelOf (s : State) (n : Nat) (I : Inst) (g : CmdRegs) : Result :=
  let r := I.row.toNat
  let c := I.col.toNat
  if r < g.extent.h ∧ c < g.extent.w then
    if pixelAccessible s.params g r c then
      .next { s with
        mem := pixelMemory s.params.kernel g r c s.mem
        insts := s.insts.set n (I.advance g.extent r c) }
    else .fault .unallocated
  else .fault .iteratorLost

/-- `pixel(n)` (R115): enabled if and only if `ST = BUSY`; an entry of the agenda for an instance that is not BUSY does
nothing (log entry 7). -/
def pixelStep (n : Nat) (s : State) : Result :=
  s.withInst n fun I =>
    if I.isBusy then
      match I.cmd with
      | some g => pixelOf s n I g
      | none => .fault .iteratorLost
    else .next s

end Sys2Proof.Machine
end

