-- ==== Sys2Proof/Machine/Step.lean ====
section
/-! DEFINITION. One step of the machine: the next transition of spec/10_state.md R32 or the next action of the host
(spec/70_reset_and_hazards.md R170). -/

namespace Sys2Proof.Machine

open Sys2Proof

/-- The accept transition at instance `n` (R30): fetch the waiting descriptor and execute its command there. -/
def acceptOffer (n : Nat) (s : State) : Result :=
  match fetchCommand n s with
  | .command i => exec i (s.select n)
  | .nothing => .next s
  | .illFormed => .refused .cv1
  | .missing => .fault .noInstance

/-- One transition or host action. -/
def perform (e : Event) (s : State) : Result :=
  match e with
  | .offer n d => offerDescriptor n d s
  | .withdraw n => withdrawDescriptor n s
  | .accept n => acceptOffer n s
  | .pixel n => pixelStep n s
  | .reset n => resetInst n s
  | .readStatus n => readStatus n s
  | .hostRead a => hostRead a s
  | .hostWrite a v => hostWrite a v s

/-- One step. Where nothing is enabled the machine does nothing (R33). -/
def step (s : State) : Host.Outcome State Fault Refusal :=
  match s.upcoming with
  | (some e, t) => perform e t
  | (none, t) => .next t

/-- `s` with an instruction placed where step fetches its next one. -/
def State.withFetchWord (s : State) (nbits w : Nat) : State := placeDescriptor (descOfTableWord nbits w) s

end Sys2Proof.Machine
end

