-- ==== Sys2Proof/Machine/Text.lean ====
section
/-! DEFINITION. The textual form of a command (spec/30_encoding.md R74): a writer and a reader of one line. A line is a list
of characters. -/

namespace Sys2Proof.Machine

open Sys2Proof

/-- `FLT.LUMA`. -/
def Text.luma : List Char := ['F', 'L', 'T', '.', 'L', 'U', 'M', 'A']

/-- `FLT.CHROMA`. -/
def Text.chroma : List Char := ['F', 'L', 'T', '.', 'C', 'H', 'R', 'O', 'M', 'A']

/-- `pred=(`. -/
def Text.pred : List Char := ['p', 'r', 'e', 'd', '=', '(']

/-- `out=(`. -/
def Text.out : List Char := ['o', 'u', 't', '=', '(']

/-- `src=(`. -/
def Text.src : List Char := ['s', 'r', 'c', '=', '(']

/-- `mm=`. -/
def Text.mm : List Char := ['m', 'm', '=']

/-- `mode=`. -/
def Text.mode : List Char := ['m', 'o', 'd', 'e', '=']

/-- The digit for a value below 16. -/
def Text.digit (n : Nat) : Char := Char.ofNat (if n < 10 then 48 + n else 87 + n)

/-- The value of a digit, in either case. -/
def Text.digitValue (c : Char) : Option Nat :=
  let n := c.toNat
  if 48 ≤ n ∧ n ≤ 57 then some (n - 48)
  else if 97 ≤ n ∧ n ≤ 102 then some (n - 87)
  else if 65 ≤ n ∧ n ≤ 70 then some (n - 55)
  else none

/-- The value of a row of digits in a base, after the value `acc` of the digits before them. -/
def Text.digitsValue (base acc : Nat) : List Char → Option Nat
  | [] => some acc
  | c :: cs =>
    match Text.digitValue c with
    | some d => if d < base then Text.digitsValue base (base * acc + d) cs else none
    | none => none

/-- A value as a 32-bit operand, if it fits. -/
def Text.operand (v : Option Nat) : Option Word :=
  match v with
  | some n => if n < 2 ^ 32 then some (BitVec.ofNat 32 n) else none
  | none => none

/-- An unsigned numeral that fits in 32 bits: decimal, or hexadecimal after `0x`. -/
def Text.numeral : List Char → Option Word
  | [] => none
  | '0' :: 'x' :: c :: cs => Text.operand (Text.digitsValue 16 0 (c :: cs))
  | c :: cs => Text.operand (Text.digitsValue 10 0 (c :: cs))

/-- The numeral the writer uses: `0x` and eight digits. -/
def Text.ofWord (w : Word) : List Char :=
  '0' :: 'x' :: [7, 6, 5, 4, 3, 2, 1, 0].map fun i => Text.digit (w.toNat / 16 ^ i % 16)

/-- The rest of a word after a key. -/
def Text.strip : List Char → List Char → Option (List Char)
  | [], cs => some cs
  | _ :: _, [] => none
  | k :: ks, c :: cs => if k = c then Text.strip ks cs else none

/-- A buffer operand `key=(BASE,STRIDE)`, the key with its `=(`. -/
def Text.buffer (key word : List Char) : Option (Address × Stride) :=
  match Text.strip key word with
  | none => none
  | some r =>
    let rest := (r.dropWhile (· ≠ ',')).drop 1
    match Text.numeral (r.takeWhile (· ≠ ',')), Text.numeral (rest.takeWhile (· ≠ ')')) with
    | some base, some stride => if rest.dropWhile (· ≠ ')') = [')'] then some (base, stride) else none
    | _, _ => none

/-- The operand `mm=MM`. -/
def Text.motion (word : List Char) : Option Motion :=
  match Text.strip Text.mm word with
  | some r => Text.numeral r
  | none => none

/-- The operand `mode=M`. -/
def Text.modeBit (word : List Char) : Option Bit :=
  match Text.strip Text.mode word with
  | some ['0'] => some 0#1
  | some ['1'] => some 1#1
  | _ => none

/-- The words of a line, divided at blanks; `cur` is the word being read, last character first. -/
def Text.wordsFrom : List Char → List Char → List (List Char)
  | cur, [] => if cur = [] then [] else [cur.reverse]
  | cur, c :: cs =>
    if c = ' ' then if cur = [] then Text.wordsFrom [] cs else cur.reverse :: Text.wordsFrom [] cs
    else Text.wordsFrom (c :: cur) cs

/-- The command a line names, if it names one (R74); `#` begins a comment to the end of the line. -/
def commandOfText (line : List Char) : Option Instr :=
  match Text.wordsFrom [] (line.takeWhile (· ≠ '#')) with
  | [name, p, o, s, m, d] =>
    match Text.buffer Text.pred p, Text.buffer Text.out o, Text.buffer Text.src s, Text.motion m, Text.modeBit d with
    | some (pb, ps), some (ob, os), some (sb, ss), some mm, some mode =>
      if name = Text.luma then some (.fltLuma mode pb ps ob os sb ss mm)
      else if name = Text.chroma then some (.fltChroma mode pb ps ob os sb ss mm)
      else none
    | _, _, _, _, _ => none
  | _ => none

/-- The buffer operand `key=(BASE,STRIDE)` as the writer has it. -/
def Text.ofBuffer (key : List Char) (base : Address) (stride : Stride) : List Char :=
  key ++ (Text.ofWord base ++ ',' :: (Text.ofWord stride ++ [')']))

/-- The line of a command whose name is given. -/
def Text.ofOperands (name : List Char) (mode : Bit) (pb : Address) (ps : Stride) (ob : Address) (os : Stride)
    (sb : Address) (ss : Stride) (mm : Motion) : List Char :=
  name ++ ' ' :: (Text.ofBuffer Text.pred pb ps ++ ' ' :: (Text.ofBuffer Text.out ob os ++ ' ' ::
    (Text.ofBuffer Text.src sb ss ++ ' ' :: ((Text.mm ++ Text.ofWord mm) ++ ' ' ::
      (Text.mode ++ [if mode = 1#1 then '1' else '0'])))))

/-- The textual form of a command (R74). -/
def textOf : Instr → List Char
  | .fltLuma mode pb ps ob os sb ss mm => Text.ofOperands Text.luma mode pb ps ob os sb ss mm
  | .fltChroma mode pb ps ob os sb ss mm => Text.ofOperands Text.chroma mode pb ps ob os sb ss mm

end Sys2Proof.Machine
end

