-- ==== Sys2Proof/Safety.lean ====
section
/-! DEFINITION. What counts as a safe state and a finished run, in the terms the statements use. -/

namespace Sys2Proof.Machine

open Sys2Proof

/-- The command is one of the two and CV2 to CV5 do not apply to it (spec/60_exceptions.md R142). -/
def CmdRegs.admissible (c : CmdRegs) (p : Params) : Prop :=
  (c.opc = 0x01#8 ∨ c.opc = 0x02#8) ∧ c.strideShort = false ∧ c.passesTop = false ∧ c.selfOverlap = false ∧
    c.notAllocated p = false

/-- CV2 to CV5 of R142 do not apply to the command, in the words of the rule. -/
structure CmdRegs.InDomain (c : CmdRegs) (p : Params) : Prop where
  /-- Not CV2: no stride is smaller than the block width. -/
  strides   : c.extent.w ≤ c.ps.toNat ∧ c.extent.w ≤ c.os.toNat ∧ c.extent.w ≤ c.ss.toNat
  /-- Not CV3: no footprint passes the top of the address space. -/
  below     : c.pb.toNat + (c.extent.h - 1) * c.ps.toNat + (c.extent.w - 1) < Config.addressSpace ∧
    c.ob.toNat + (c.extent.h - 1) * c.os.toNat + (c.extent.w - 1) < Config.addressSpace ∧
    c.sb.toNat + (c.extent.h - 1) * c.ss.toNat + (c.extent.w - 1) < Config.addressSpace
  /-- Not CV4: the three footprints are pairwise disjoint. -/
  apart     : (∀ a ∈ c.pred.addresses, a ∉ c.out.addresses) ∧ (∀ a ∈ c.pred.addresses, a ∉ c.src.addresses) ∧
    (∀ a ∈ c.out.addresses, a ∉ c.src.addresses)
  /-- Not CV5: every byte of the footprints is allocated. -/
  allocated : ∀ a, (a ∈ c.pred.addresses ∨ a ∈ c.out.addresses ∨ a ∈ c.src.addresses) → p.allocated a = true

/-- The bytes the command reads or writes (R59). -/
def CmdRegs.Touches (c : CmdRegs) (a : Nat) : Prop :=
  a ∈ c.pred.addresses ∨ a ∈ c.out.addresses ∨ a ∈ c.src.addresses

/-- The bytes the command may write (R59). -/
def CmdRegs.MayWrite (c : CmdRegs) (a : Nat) : Prop := a ∈ c.out.addresses ∨ a ∈ c.src.addresses

/-- Neither command may write a byte the other touches (R55). -/
def CmdRegs.Apart (c d : CmdRegs) : Prop := ∀ a, ¬(c.MayWrite a ∧ d.Touches a) ∧ ¬(d.MayWrite a ∧ c.Touches a)

/-- CV7 does not apply to the command at instance `n`: no other instance holds a command that is not apart from it. -/
def State.ClearFor (s : State) (n : Nat) (c : CmdRegs) : Prop :=
  ∀ (m : Nat) (J : Inst), m ≠ n → s.insts[m]? = some J → ∀ d ∈ J.held, d.Apart c

/-- What R24 to R26, R30 and R33 say of the registers of one instance, and that the host's bookkeeping fits them. -/
structure Inst.Inv (p : Params) (I : Inst) : Prop where
  /-- The value 0b11 is never produced (R26). -/
  code    : I.status = stIdle ∨ I.status = stBusy ∨ I.status = stDone
  /-- The counters are (0, 0) unless BUSY (R25). -/
  rest    : I.isBusy = false → I.row = 0#5 ∧ I.col = 0#5
  /-- IDLE: no command has been accepted since reset (R24, R26). -/
  idle    : I.status = stIdle → I.cmd = none
  /-- DONE: the last command's registers are still there (R22). -/
  done    : I.isDone = true → I.cmd.isSome = true
  /-- BUSY: the registers hold a command, handed over, and the counters lie in its block (R24, R25). -/
  busy    : I.isBusy = true → ∃ g, I.cmd = some g ∧ g ∈ I.handed ∧ I.row.toNat < g.extent.h ∧ I.col.toNat < g.extent.w
  /-- Only commands within contract are accepted (R30, R143). -/
  legal   : ∀ g ∈ I.handed, g.admissible p

/-- No two instances hold accepted commands whose footprints conflict (R55, R142 CV7). -/
def State.RaceFree (s : State) : Prop :=
  ∀ (n m : Nat) (I J : Inst), s.insts[n]? = some I → s.insts[m]? = some J → n ≠ m →
    ∀ c ∈ I.handed, ∀ d ∈ J.handed, c.conflicts d = false

/-- The invariant of the machine. -/
structure State.Inv (s : State) : Prop where
  /-- Memory keeps its canonical form. -/
  memWf    : s.mem.wf
  /-- No byte outside the address space is listed (R40). -/
  memSpace : s.mem.inSpace
  /-- The kernel's constants meet P1 to P6 (R87). -/
  kernel   : s.params.kernel.Valid
  /-- Every instance is in order. -/
  insts    : ∀ I ∈ s.insts, I.Inv s.params
  /-- No two instances race. -/
  raceFree : s.RaceFree

/-- The shape P7 that the source describes for the reference constants (R105): with `full` the number of low bands, at
least one, the caps of those bands reach their thresholds and the caps of every higher band do not exceed the threshold
below. No constants are required to have it; a statement that uses it names it. -/
def ReferenceShape (k : KCfg) (cap : Band → Nat) (full : Nat) : Prop :=
  1 ≤ full ∧ (∀ (i : Nat) (h : i < k.bands.length), i < full → (k.bands[i]).threshold ≤ cap (k.bands[i])) ∧
    ∀ (i : Nat) (h : i + 1 < k.bands.length), full ≤ i + 1 → cap (k.bands[i + 1]) ≤ (k.bands[i]).threshold

/-- The run is over (R171): the host has no further action and every instance is IDLE or DONE. That a run with a descriptor
still waiting is not over, since its accept is enabled, is the model's reading. DESIGN CHOICE, safe (log entry 17). -/
def State.over (s : State) : Prop :=
  s.agenda = [] ∧ ∀ I ∈ s.insts, I.offered = none ∧ (I.status = stIdle ∨ I.status = stDone)

/-- The byte that the command `g` leaves at an address when it starts from memory `m` (R118): at a position of `output` the
kernel's `out`, at a position of `source` the kernel's `src_next`, elsewhere the byte that was there. -/
structure BigStep (k : KCfg) (g : CmdRegs) (m m' : Memory) : Prop where
  out   : ∀ r < g.extent.h, ∀ c < g.extent.w, m'.read (g.out.addr r c) =
    (pixelRule k (m.read (g.pred.addr r c)) (m.read (g.src.addr r c)) g.mm g.mode).out
  src   : ∀ r < g.extent.h, ∀ c < g.extent.w, m'.read (g.src.addr r c) =
    (pixelRule k (m.read (g.pred.addr r c)) (m.read (g.src.addr r c)) g.mm g.mode).srcNext
  frame : ∀ a, a ∉ g.out.addresses → a ∉ g.src.addresses → m'.read a = m.read a

end Sys2Proof.Machine
end

