-- ==== Sys2Proof/Certificates/Slice0/Obligations.lean ====
section
/-! DEFINITION. The statements for the provers, from the numbered rules of spec/. Each docstring names the rules it follows
and any log entry a clause rests on. -/

open Sys2Proof Sys2Proof.Machine

/-! ## Encoding (30_encoding.md) -/

/-- R76: the worked encoding, and two words of `W0` that are not well formed. -/
def Obligations.WorkedDescriptorsEncodeAndDecode : Prop :=
  encode (.fltChroma 1 0x00001000 8 0x00002000 12 0x00003000 10 10) =
      0x0000000A0000000A000030000000000C00002000000000080000100000000102#256 ∧
    encode (.fltLuma 0 0x00001000 8 0x00002000 12 0x00003000 10 10) =
      0x0000000A0000000A000030000000000C00002000000000080000100000000001#256 ∧
    decode 0x0000000A0000000A000030000000000C00002000000000080000100000000102#256 =
      .ok (.fltChroma 1 0x00001000 8 0x00002000 12 0x00003000 10 10) ∧
    decode 0x0000000A0000000A000030000000000C00002000000000080000100000000001#256 =
      .ok (.fltLuma 0 0x00001000 8 0x00002000 12 0x00003000 10 10) ∧
    ∀ d : Desc, Desc.w0 d = 0x00000003#32 ∨ Desc.w0 d = 0x00000201#32 →
      Desc.wellFormed d = false ∧ ∃ e, decode d = .error e

/-- R70: the decoder is total, gives the fields of R66 on well-formed descriptors and nothing on others, and the encoder is
its inverse both ways. -/
def Obligations.DecodeAndEncodeAreInverse : Prop :=
  (∀ d : Desc, Desc.wellFormed d = true → d.extractLsb' 0 8 = 0x01#8 →
    decode d = .ok (.fltLuma (d.extractLsb' 8 1) (d.extractLsb' 32 32) (d.extractLsb' 64 32) (d.extractLsb' 96 32)
      (d.extractLsb' 128 32) (d.extractLsb' 160 32) (d.extractLsb' 192 32) (d.extractLsb' 224 32))) ∧
  (∀ d : Desc, Desc.wellFormed d = true → d.extractLsb' 0 8 = 0x02#8 →
    decode d = .ok (.fltChroma (d.extractLsb' 8 1) (d.extractLsb' 32 32) (d.extractLsb' 64 32) (d.extractLsb' 96 32)
      (d.extractLsb' 128 32) (d.extractLsb' 160 32) (d.extractLsb' 192 32) (d.extractLsb' 224 32))) ∧
  (∀ d : Desc, Desc.wellFormed d = true ↔
    (d.extractLsb' 0 8 = 0x01#8 ∨ d.extractLsb' 0 8 = 0x02#8) ∧ d.extractLsb' 9 23 = 0#23) ∧
  (∀ d : Desc, Desc.wellFormed d = false → ∃ e, decode d = .error e) ∧
  (∀ (d : Desc) (i : Instr), decode d = .ok i → encode i = d) ∧
  ∀ i : Instr, decode (encode i) = .ok i

/-- R68: the match and mask of each row of the opcode table say exactly which descriptors decode to it, whatever
`W1 … W7` are, and the block extents of the two rows. -/
def Obligations.OpcodeTableSelectsTheCommand : Prop :=
  (∀ d : Desc, (Desc.w0 d &&& 0xFFFFFEFF#32 = 0x00000001#32) ↔
    ∃ mode pb ps ob os sb ss mm, decode d = .ok (.fltLuma mode pb ps ob os sb ss mm)) ∧
  (∀ d : Desc, (Desc.w0 d &&& 0xFFFFFEFF#32 = 0x00000002#32) ↔
    ∃ mode pb ps ob os sb ss mm, decode d = .ok (.fltChroma mode pb ps ob os sb ss mm)) ∧
  (∀ mode pb ps ob os sb ss mm, (cmdRegsOf (.fltLuma mode pb ps ob os sb ss mm)).extent = ⟨16, 16⟩) ∧
  (∀ mode pb ps ob os sb ss mm, (cmdRegsOf (.fltChroma mode pb ps ob os sb ss mm)).extent = ⟨8, 8⟩) ∧
  ∀ d : Desc, d.extractLsb' 0 8 ≠ 0x01#8 → d.extractLsb' 0 8 ≠ 0x02#8 → ∃ e, decode d = .error e

/-- R71: a descriptor that is not well formed is refused with CV1, both when it is offered and, should one wait, when it
would be accepted. That the offer itself is refused is log entry 9. -/
def Obligations.IllFormedDescriptorIsRefused : Prop :=
  ∀ (s : State) (n : Nat) (I : Inst) (d : Desc), s.insts[n]? = some I → Desc.wellFormed d = false →
    perform (.offer n d) s = .refused .cv1 ∧ (I.offered = some d → perform (.accept n) s = .refused .cv1)

/-- R74: the line written for a command is read as that command, whatever its operands. -/
def Obligations.TextualFormNamesTheCommand : Prop := ∀ i : Instr, commandOfText (textOf i) = some i

/-! ## The kernel (40_pixel_rule.md), for every configuration -/

/-- R85, R88, R95: strictly above the motion threshold the kernel answers the source sample and issues no source write; up
to and including the threshold it answers the corrected value in both places and issues the write. -/
def Obligations.MotionGateSelectsCopyOrCorrection : Prop :=
  ∀ (k : KCfg) (p s : Byte) (mm : Motion) (mode : Bit),
    (k.motionThreshold < mm.toNat → pixelRule k p s mm mode = ⟨s, s, false⟩) ∧
      (mm.toNat ≤ k.motionThreshold →
        pixelRule k p s mm mode = ⟨corrected k mode p s, corrected k mode p s, true⟩)

/-- R90: the band of `a` is the least `i` with `a ≤ T[i]`, or `K`; band 0 is `a ≤ T[0]`, band `i` is
`T[i−1] < a ≤ T[i]`, band `K` is `a > T[K−1]`. -/
def Obligations.BandsPartitionTheDifference : Prop :=
  ∀ (k : KCfg) (a : Nat),
    bandOf k a ≤ k.numBands ∧
    (∀ h : bandOf k a < k.bands.length, a ≤ (k.bands[bandOf k a]).threshold) ∧
    (∀ (j : Nat) (h : j < k.bands.length), a ≤ (k.bands[j]).threshold → bandOf k a ≤ j) ∧
    (k.Valid →
      (∀ h : 0 < k.bands.length, bandOf k a = 0 ↔ a ≤ (k.bands[0]).threshold) ∧
      (∀ (i : Nat) (h : i + 1 < k.bands.length),
        bandOf k a = i + 1 ↔ (k.bands[i]).threshold < a ∧ a ≤ (k.bands[i + 1]).threshold) ∧
      ∀ h : k.bands.length - 1 < k.bands.length,
        bandOf k a = k.numBands ↔ (k.bands[k.bands.length - 1]).threshold < a)

/-- R91, R92: the magnitude is the difference capped by the band's conservative cap (mode 0) or aggressive cap (mode 1), and
0 above the top band; it never exceeds the difference. -/
def Obligations.MagnitudeIsTheCappedDifference : Prop :=
  ∀ (k : KCfg) (a : Nat),
    (∀ h : bandOf k a < k.bands.length,
      magnitude k 0#1 a = min a (k.bands[bandOf k a]).conservative ∧
        magnitude k 1#1 a = min a (k.bands[bandOf k a]).aggressive) ∧
    (bandOf k a = k.numBands → ∀ mode, magnitude k mode a = 0) ∧
    ∀ mode, magnitude k mode a ≤ a

/-- R93: the correction has the magnitude's size and the difference's sign, and lies between 0 and the difference. -/
def Obligations.CorrectionKeepsTheSign : Prop :=
  ∀ (k : KCfg) (mode : Bit) (p s : Byte),
    let diff : Int := (p.toNat : Int) - (s.toNat : Int)
    let m : Int := magnitude k mode diff.natAbs
    (0 ≤ diff → correction k mode p s = m) ∧ (diff < 0 → correction k mode p s = -m) ∧
      ((correction k mode p s).natAbs : Int) = m ∧ m ≤ diff.natAbs ∧
      ((0 ≤ correction k mode p s ∧ correction k mode p s ≤ diff) ∨
        (diff ≤ correction k mode p s ∧ correction k mode p s ≤ 0)) ∧
      -255 ≤ correction k mode p s ∧ correction k mode p s ≤ 255

/-- R98: with the gate open the new sample lies between the source and the prediction sample, inclusive. -/
def Obligations.CorrectionNeverPassesThePrediction : Prop :=
  ∀ (k : KCfg) (p s : Byte) (mm : Motion) (mode : Bit), mm.toNat ≤ k.motionThreshold →
    (s.toNat ≤ p.toNat →
      s.toNat ≤ (pixelRule k p s mm mode).out.toNat ∧ (pixelRule k p s mm mode).out.toNat ≤ p.toNat) ∧
    (p.toNat < s.toNat →
      p.toNat ≤ (pixelRule k p s mm mode).out.toNat ∧ (pixelRule k p s mm mode).out.toNat ≤ s.toNat)

/-- R99: with the gate open the sum lies in 0 … 255 and the clamp is the identity on it. -/
def Obligations.ClampNeverChangesTheSum : Prop :=
  ∀ (k : KCfg) (p s : Byte) (mm : Motion) (mode : Bit), mm.toNat ≤ k.motionThreshold →
    0 ≤ (s.toNat : Int) + correction k mode p s ∧ (s.toNat : Int) + correction k mode p s ≤ 255 ∧
      ((pixelRule k p s mm mode).out.toNat : Int) = (s.toNat : Int) + correction k mode p s

/-- R94: the clamp saturates: below 0 it gives 0, above 255 it gives 255, and between it keeps the value. -/
def Obligations.ClampSaturates : Prop :=
  ∀ x : Int, (x < 0 → clamp255 x = 0#8) ∧ (255 < x → clamp255 x = 255#8) ∧
    (0 ≤ x → x ≤ 255 → ((clamp255 x).toNat : Int) = x)

/-- R100: equal samples give that sample, for every motion magnitude, mode and configuration; the source write is issued
exactly when the gate is open. -/
def Obligations.ZeroDifferenceChangesNothing : Prop :=
  ∀ (k : KCfg) (s : Byte) (mm : Motion) (mode : Bit),
    (pixelRule k s s mm mode).out = s ∧ (pixelRule k s s mm mode).srcNext = s ∧
      ((pixelRule k s s mm mode).wrSrc = true ↔ mm.toNat ≤ k.motionThreshold)

/-- R102: the aggressive mode corrects at least as much as the conservative one and ends at least as close to the
prediction. -/
def Obligations.AggressiveModeCorrectsAtLeastAsMuch : Prop :=
  ∀ (k : KCfg) (p s : Byte) (mm : Motion), k.Valid →
    (correction k 0#1 p s).natAbs ≤ (correction k 1#1 p s).natAbs ∧
      ((p.toNat : Int) - (pixelRule k p s mm 1#1).out.toNat).natAbs ≤
        ((p.toNat : Int) - (pixelRule k p s mm 0#1).out.toNat).natAbs ∧
      (((pixelRule k p s mm 0#1).out.toNat : Int) - s.toNat).natAbs ≤
        (((pixelRule k p s mm 1#1).out.toNat : Int) - s.toNat).natAbs

/-- R103: opposite differences give opposite corrections. -/
def Obligations.OppositeDifferencesCorrectOppositely : Prop :=
  ∀ (k : KCfg) (mode : Bit) (p s p' s' : Byte),
    (p'.toNat : Int) - (s'.toNat : Int) = -((p.toNat : Int) - (s.toNat : Int)) →
      correction k mode p' s' = -correction k mode p s

/-- R10, R87: the hardware's constants are open but meet P1 to P6, and the form in which the model leaves them open (log
entry 2) leaves out no constants that meet them. -/
def Obligations.OpenConstantsAreExactlyTheLegalOnes : Prop :=
  Config.kernel.Valid ∧ ∀ k : KCfg, k.Valid ↔ ∃ seed : KSeed, seed.toKCfg = k

/-- R105: for constants that have the descriptive shape P7 with `full` full-difference bands, a difference in one of those
bands is applied in full, and in a higher band, up to the top one, the correction is the cap and is less than the
difference. -/
def Obligations.ReferenceShapeGivesFullThenPartialPull : Prop :=
  ∀ (k : KCfg) (a full : Nat) (mode : Bit),
    ReferenceShape k (fun b => if mode = 1#1 then b.aggressive else b.conservative) full →
    (bandOf k a < full → bandOf k a < k.numBands → magnitude k mode a = a) ∧
      (full ≤ bandOf k a → bandOf k a < k.numBands →
        magnitude k mode a = kernelCap k mode (bandOf k a) ∧ kernelCap k mode (bandOf k a) < a)

/-! ## Operands and footprints (20_memory.md, 41_block_iterator.md) -/

/-- R112: within contract every address of a position is the exact integer base + row·stride + column, lies below `2^32`,
and is what 32-bit arithmetic on the registers gives. -/
def Obligations.AddressesAreExactAndNeverWrap : Prop :=
  ∀ (p : Params) (g : CmdRegs) (r c : Nat), g.InDomain p → r < g.extent.h → c < g.extent.w →
    (g.pred.addr r c = g.pb.toNat + r * g.ps.toNat + c ∧ g.out.addr r c = g.ob.toNat + r * g.os.toNat + c ∧
      g.src.addr r c = g.sb.toNat + r * g.ss.toNat + c) ∧
    (g.pred.addr r c < 2 ^ 32 ∧ g.out.addr r c < 2 ^ 32 ∧ g.src.addr r c < 2 ^ 32) ∧
    (g.pb + BitVec.ofNat 32 r * g.ps + BitVec.ofNat 32 c).toNat = g.pred.addr r c ∧
    (g.ob + BitVec.ofNat 32 r * g.os + BitVec.ofNat 32 c).toNat = g.out.addr r c ∧
    (g.sb + BitVec.ofNat 32 r * g.ss + BitVec.ofNat 32 c).toNat = g.src.addr r c

/-- R15, R59: a footprint is the set of its positions' addresses, and has exactly `W·H` distinct ones when the stride is at
least the width; membership is decided row by row. -/
def Obligations.FootprintHasOneAddressPerPosition : Prop :=
  ∀ f : Footprint,
    (∀ a, a ∈ f.addresses ↔ ∃ r < f.extent.h, ∃ c < f.extent.w, a = f.base + r * f.stride + c) ∧
    (∀ a, f.contains a = true ↔ a ∈ f.addresses) ∧
    f.addresses.length = f.extent.w * f.extent.h ∧ (f.extent.w ≤ f.stride → f.addresses.Nodup)

/-- R21, R47: a byte of a canonical memory reads as the value last written, every other byte as before; and a write keeps
the canonical form. -/
def Obligations.WrittenByteReadsBackAndFormIsKept : Prop :=
  ∀ (m : Memory) (a : Nat) (v : Byte), m.wf →
    (m.write a v).read a = v ∧ (∀ x, x ≠ a → (m.write a v).read x = m.read x) ∧ (m.write a v).wf

/-! ## The commands at the interface (10_state.md R30, 60_exceptions.md R142 to R144) -/

/-- R30, R130: `FLT.LUMA` on an instance that is not BUSY, within contract, is accepted: the nine registers are loaded, the
counters are (0, 0), `ST` is BUSY, and nothing else of the machine changes. -/
def Obligations.FltLumaIsAccepted : Prop :=
  ∀ (mode : Bit) (pb : Address) (ps : Stride) (ob : Address) (os : Stride) (sb : Address) (ss : Stride)
      (mm : Motion) (s : State) (I : Inst), s.insts[s.sel]? = some I → I.status ≠ 0b01#2 →
    (⟨0x01#8, mode, pb, ps, ob, os, sb, ss, mm⟩ : CmdRegs).InDomain s.params →
    s.ClearFor s.sel ⟨0x01#8, mode, pb, ps, ob, os, sb, ss, mm⟩ →
    exec (.fltLuma mode pb ps ob os sb ss mm) s = .next { s with
      insts := s.insts.set s.sel {
        cmd := some ⟨0x01#8, mode, pb, ps, ob, os, sb, ss, mm⟩
        row := 0#5, col := 0#5, status := 0b01#2, offered := none
        handed := ⟨0x01#8, mode, pb, ps, ob, os, sb, ss, mm⟩ :: I.handed } }

/-- R30, R131: the same for `FLT.CHROMA`. -/
def Obligations.FltChromaIsAccepted : Prop :=
  ∀ (mode : Bit) (pb : Address) (ps : Stride) (ob : Address) (os : Stride) (sb : Address) (ss : Stride)
      (mm : Motion) (s : State) (I : Inst), s.insts[s.sel]? = some I → I.status ≠ 0b01#2 →
    (⟨0x02#8, mode, pb, ps, ob, os, sb, ss, mm⟩ : CmdRegs).InDomain s.params →
    s.ClearFor s.sel ⟨0x02#8, mode, pb, ps, ob, os, sb, ss, mm⟩ →
    exec (.fltChroma mode pb ps ob os sb ss mm) s = .next { s with
      insts := s.insts.set s.sel {
        cmd := some ⟨0x02#8, mode, pb, ps, ob, os, sb, ss, mm⟩
        row := 0#5, col := 0#5, status := 0b01#2, offered := none
        handed := ⟨0x02#8, mode, pb, ps, ob, os, sb, ss, mm⟩ :: I.handed } }

/-- R30: while the instance is BUSY a command is not accepted and has no effect; its descriptor goes on waiting. -/
def Obligations.BusyInstanceLeavesTheDescriptorWaiting : Prop :=
  ∀ (i : Instr) (s : State) (I : Inst) (d : Desc), I.status = 0b01#2 → decode d = .ok i →
    (s.insts[s.sel]? = some I → exec i s = .next s) ∧
      ∀ n, s.insts[n]? = some I → I.offered = some d → perform (.accept n) s = .next (s.select n) ∧
        (s.select n).insts = s.insts ∧ (s.select n).mem = s.mem

/-- R142 to R144: on an instance that is not BUSY the first of CV2, CV3, CV4, CV5, CV7 that applies is the reason for which
a command is refused. That CV7 looks at every command handed over, not at BUSY ones alone, is log entry 10. -/
def Obligations.CommandOutsideContractIsRefusedInOrder : Prop :=
  ∀ (i : Instr) (s : State) (I : Inst), s.insts[s.sel]? = some I → I.status ≠ 0b01#2 →
    let g := cmdRegsOf i
    let w := g.extent.w
    let h := g.extent.h
    let cv2 := g.ps.toNat < w ∨ g.os.toNat < w ∨ g.ss.toNat < w
    let cv3 := 2 ^ 32 ≤ g.pb.toNat + (h - 1) * g.ps.toNat + (w - 1) ∨ 2 ^ 32 ≤ g.ob.toNat + (h - 1) * g.os.toNat + (w - 1) ∨
      2 ^ 32 ≤ g.sb.toNat + (h - 1) * g.ss.toNat + (w - 1)
    let cv4 := ∃ a, (a ∈ g.pred.addresses ∧ a ∈ g.out.addresses) ∨ (a ∈ g.pred.addresses ∧ a ∈ g.src.addresses) ∨
      (a ∈ g.out.addresses ∧ a ∈ g.src.addresses)
    let cv5 := ∃ a, g.Touches a ∧ s.params.allocated a = false
    let cv7 := ∃ (m : Nat) (J : Inst) (d : CmdRegs), m ≠ s.sel ∧ s.insts[m]? = some J ∧ d ∈ J.held ∧
      ∃ a, (d.MayWrite a ∧ g.Touches a) ∨ (g.MayWrite a ∧ d.Touches a)
    (cv2 → exec i s = .refused .cv2) ∧ (¬cv2 → cv3 → exec i s = .refused .cv3) ∧
      (¬cv2 → ¬cv3 → cv4 → exec i s = .refused .cv4) ∧ (¬cv2 → ¬cv3 → ¬cv4 → cv5 → exec i s = .refused .cv5) ∧
      (¬cv2 → ¬cv3 → ¬cv4 → ¬cv5 → cv7 → exec i s = .refused .cv7)

/-- R30: the frame of both commands at the interface: no byte of memory, no constant and no other instance changes, and
nothing of the model's own fields. -/
def Obligations.AcceptingLeavesAllElseAlone : Prop :=
  ∀ (i : Instr) (s t : State), exec i s = .next t →
    (∀ a, t.mem.read a = s.mem.read a) ∧ t.mem = s.mem ∧ t.params = s.params ∧ t.agenda = s.agenda ∧ t.sel = s.sel ∧
      t.seen = s.seen ∧ t.insts.length = s.insts.length ∧ ∀ m, m ≠ s.sel → t.insts[m]? = s.insts[m]?

/-- The step runs the decoded command: when the transition to come is the accept at an instance where a descriptor waits
that decodes to `i`, the step is `exec i` there (R30, R57; log entries 7 and 8), with the agenda advanced; and a command
placed by `withFetchWord` is fetched by the next step (log entry 14). -/
def Obligations.StepRunsTheDecodedCommand : Prop :=
  (∀ (s : State) (n : Nat) (rest : List Event) (I : Inst) (d : Desc) (i : Instr), s.agenda = .accept n :: rest →
    s.insts[n]? = some I → I.offered = some d → decode d = .ok i →
    step s = exec i { s with agenda := rest, sel := n }) ∧
  ∀ (s : State) (I : Inst) (w : Nat) (i : Instr), s.insts[0]? = some I → decodeTableWord 256 w = some i →
    step (s.withFetchWord 256 w) = exec i { s with
      insts := s.insts.set 0 { I with offered := some (BitVec.ofNat 256 w) }, sel := 0 }

/-- How the step chooses (log entry 7): the agenda's next entry is performed; with an empty agenda the first BUSY instance
takes its pixel step (R117); with none BUSY the first waiting descriptor is accepted (R30); else nothing changes. -/
def Obligations.StepFollowsTheAgendaThenTheMachine : Prop :=
  ∀ s : State,
    (∀ e rest, s.agenda = e :: rest → step s = perform e { s with agenda := rest }) ∧
    (s.agenda = [] → ∀ n, s.firstBusy = some n → step s = pixelStep n s) ∧
    (s.agenda = [] → s.firstBusy = none → ∀ n, s.firstWaiting = some n → step s = perform (.accept n) s) ∧
    (s.agenda = [] → (∀ I ∈ s.insts, I.status ≠ 0b01#2 ∧ I.offered = none) → step s = .next s)

/-! ## The pixel step (41_block_iterator.md R115) -/

/-- R115, R25: the pixel step of a BUSY instance within contract completes: `output` receives `out`, `source` holds
`src_next`, every other byte keeps its value, and the counters and `ST` advance in raster order. -/
def Obligations.PixelStepWritesAndAdvances : Prop :=
  ∀ (s : State) (n : Nat) (I : Inst) (g : CmdRegs), s.mem.wf → s.insts[n]? = some I → I.status = 0b01#2 →
    I.cmd = some g → g.InDomain s.params → I.row.toNat < g.extent.h → I.col.toNat < g.extent.w →
    let r := I.row.toNat
    let c := I.col.toNat
    let aP := g.pb.toNat + r * g.ps.toNat + c
    let aO := g.ob.toNat + r * g.os.toNat + c
    let aS := g.sb.toNat + r * g.ss.toNat + c
    let res := pixelRule s.params.kernel (s.mem.read aP) (s.mem.read aS) g.mm g.mode
    ∃ t J, perform (.pixel n) s = .next t ∧ t.mem.read aO = res.out ∧ t.mem.read aS = res.srcNext ∧
      (∀ a, a ≠ aO → a ≠ aS → t.mem.read a = s.mem.read a) ∧
      t.insts = s.insts.set n J ∧ J.cmd = I.cmd ∧ J.offered = I.offered ∧ J.handed = I.handed ∧
      (c + 1 < g.extent.w → J.col.toNat = c + 1 ∧ J.row = I.row ∧ J.status = 0b01#2) ∧
      (¬c + 1 < g.extent.w → r + 1 < g.extent.h → J.col = 0#5 ∧ J.row.toNat = r + 1 ∧ J.status = 0b01#2) ∧
      (¬c + 1 < g.extent.w → ¬r + 1 < g.extent.h → J.col = 0#5 ∧ J.row = 0#5 ∧ J.status = 0b10#2) ∧
      t.params = s.params ∧ t.agenda = s.agenda ∧ t.sel = s.sel ∧ t.seen = s.seen

/-- R45, R48: the frame of a pixel step that completes, in every state: no byte changes but the `output` byte of the
position and, only if the command is not gated, its `source` byte; no other instance changes. -/
def Obligations.PixelStepTouchesOnlyItsTwoBytes : Prop :=
  ∀ (s t : State) (n : Nat) (I : Inst) (g : CmdRegs), perform (.pixel n) s = .next t → s.insts[n]? = some I →
    I.status = 0b01#2 → I.cmd = some g →
    (∀ a, a ≠ g.out.addr I.row.toNat I.col.toNat →
      (a ≠ g.src.addr I.row.toNat I.col.toNat ∨ s.params.kernel.motionThreshold < g.mm.toNat) →
      t.mem.read a = s.mem.read a) ∧
    (∀ m, m ≠ n → t.insts[m]? = s.insts[m]?) ∧ t.params = s.params

/-- The model's choice for an agenda entry whose transition is not enabled (log entry 7): a pixel step of an instance that
is not BUSY (R115) and an accept where nothing waits (R30) change nothing. -/
def Obligations.TransitionNotEnabledChangesNothing : Prop :=
  ∀ (s : State) (n : Nat) (I : Inst), s.insts[n]? = some I →
    (I.status ≠ 0b01#2 → perform (.pixel n) s = .next s) ∧ (I.offered = none → perform (.accept n) s = .next s)

/-! ## Whole commands (41_block_iterator.md R116 to R121, 42_filter_commands.md) -/

/-- R118, R130: `FLT.LUMA`, within contract, on an instance that is not BUSY while no other is: exec accepts it, and after
exactly 256 further steps of the machine left to itself `ST` is DONE, the counters are (0, 0), and memory is the big-step
`M1`: every position of `output` and `source` holds what the kernel gives on the memory at accept, every other byte is
unchanged. -/
def Obligations.FltLumaFiltersTheBlock : Prop :=
  ∀ (mode : Bit) (pb : Address) (ps : Stride) (ob : Address) (os : Stride) (sb : Address) (ss : Stride)
      (mm : Motion) (s : State) (I : Inst),
    let g : CmdRegs := ⟨0x01#8, mode, pb, ps, ob, os, sb, ss, mm⟩
    s.mem.wf → s.agenda = [] → s.insts[s.sel]? = some I → (∀ J ∈ s.insts, J.status ≠ 0b01#2) →
    g.InDomain s.params → s.ClearFor s.sel g →
    ∃ t u J, exec (.fltLuma mode pb ps ob os sb ss mm) s = .next t ∧ core.run 256 t = .next u ∧
      u.insts = s.insts.set s.sel J ∧ J.status = 0b10#2 ∧ J.row = 0#5 ∧ J.col = 0#5 ∧ J.cmd = some g ∧
      BigStep s.params.kernel g s.mem u.mem ∧ u.mem.wf ∧ u.params = s.params

/-- R118, R131: the same for `FLT.CHROMA`, after exactly 64 further steps. -/
def Obligations.FltChromaFiltersTheBlock : Prop :=
  ∀ (mode : Bit) (pb : Address) (ps : Stride) (ob : Address) (os : Stride) (sb : Address) (ss : Stride)
      (mm : Motion) (s : State) (I : Inst),
    let g : CmdRegs := ⟨0x02#8, mode, pb, ps, ob, os, sb, ss, mm⟩
    s.mem.wf → s.agenda = [] → s.insts[s.sel]? = some I → (∀ J ∈ s.insts, J.status ≠ 0b01#2) →
    g.InDomain s.params → s.ClearFor s.sel g →
    ∃ t u J, exec (.fltChroma mode pb ps ob os sb ss mm) s = .next t ∧ core.run 64 t = .next u ∧
      u.insts = s.insts.set s.sel J ∧ J.status = 0b10#2 ∧ J.row = 0#5 ∧ J.col = 0#5 ∧ J.cmd = some g ∧
      BigStep s.params.kernel g s.mem u.mem ∧ u.mem.wf ∧ u.params = s.params

/-- R75, R118, R164: the synchronous call on an idle machine (offer, accept, every pixel step, read of STATUS) ends with the
host having read DONE, the buffers given back, and memory the big-step `M1`. -/
def Obligations.SynchronousCallReturnsTheFilteredBlock : Prop :=
  ∀ (i : Instr) (s : State) (n : Nat) (I : Inst), s.mem.wf → s.agenda = synchronousCall n i → s.insts[n]? = some I →
    I.status ≠ 0b01#2 → (cmdRegsOf i).InDomain s.params → s.ClearFor n (cmdRegsOf i) →
    ∃ u J, core.run (s.agenda.length) s = .next u ∧ u.agenda = [] ∧ u.insts = s.insts.set n J ∧ J.status = 0b10#2 ∧
      J.held = [] ∧ u.seen = some (.status n 0b10#2) ∧ BigStep s.params.kernel (cmdRegsOf i) s.mem u.mem

/-- R118, R55 for any schedule: from a state of the invariant in which instance `n` is at the start of a command `g`, let the
agenda hold pixel steps only, of any existing instances in any order, at least `W·H` of them of instance `n`. Then all of them
are performed, `n` ends DONE, its `output` and `source` footprints hold `M1`, and its `prediction` footprint is unchanged. -/
def Obligations.EveryInterleavingFiltersTheBlock : Prop :=
  ∀ (s : State) (n : Nat) (I : Inst) (g : CmdRegs), s.Inv → s.insts[n]? = some I → I.status = 0b01#2 →
    I.cmd = some g → I.row = 0#5 → I.col = 0#5 → (∀ e ∈ s.agenda, ∃ m, m < s.insts.length ∧ e = .pixel m) →
    g.extent.w * g.extent.h ≤ s.agenda.count (.pixel n) →
    ∃ u, core.run s.agenda.length s = .next u ∧ (∃ J, u.insts[n]? = some J ∧ J.status = 0b10#2) ∧
    (∀ r < g.extent.h, ∀ c < g.extent.w,
      let res := pixelRule s.params.kernel (s.mem.read (g.pred.addr r c)) (s.mem.read (g.src.addr r c)) g.mm g.mode
      u.mem.read (g.out.addr r c) = res.out ∧ u.mem.read (g.src.addr r c) = res.srcNext ∧
        u.mem.read (g.pred.addr r c) = s.mem.read (g.pred.addr r c))

/-- R55: in a state of the invariant the pixel steps of two instances commute: both orders complete, in the same state. -/
def Obligations.PixelStepsOfTwoInstancesCommute : Prop :=
  ∀ (s : State) (n m : Nat) (I J : Inst), s.Inv → n ≠ m → s.insts[n]? = some I → s.insts[m]? = some J →
    ∃ a b u, perform (.pixel n) s = .next a ∧ perform (.pixel m) a = .next u ∧
      perform (.pixel m) s = .next b ∧ perform (.pixel n) b = .next u

/-- R55, R164: in a state of the invariant a pixel step of another instance changes no byte of a BUSY instance's three
footprints. -/
def Obligations.OtherInstancesNeverDisturbABusyOne : Prop :=
  ∀ (s t : State) (n m : Nat) (I : Inst) (g : CmdRegs), s.Inv → n ≠ m → s.insts[n]? = some I → I.status = 0b01#2 →
    I.cmd = some g → perform (.pixel m) s = .next t →
    (∀ a, g.Touches a → t.mem.read a = s.mem.read a) ∧ t.insts[n]? = some I

/-- R119, R120, R121: after a whole command `output` and `source` agree position by position; a gated command leaves
`source` as it was and copies it; equal `prediction` and `source` leave `source` as it was; every new sample lies between the
old `source` and the `prediction` sample; no byte outside the two written footprints changes. -/
def Obligations.WholeCommandMeetsTheBlockProperties : Prop :=
  ∀ (i : Instr) (s : State) (n : Nat) (I : Inst), s.mem.wf → s.agenda = synchronousCall n i → s.insts[n]? = some I →
    I.status ≠ 0b01#2 → (cmdRegsOf i).InDomain s.params → s.ClearFor n (cmdRegsOf i) →
    ∃ u, core.run (s.agenda.length) s = .next u ∧
      let g := cmdRegsOf i
      (∀ r < g.extent.h, ∀ c < g.extent.w,
        let old := s.mem.read (g.src.addr r c)
        let prd := s.mem.read (g.pred.addr r c)
        let new := u.mem.read (g.out.addr r c)
        u.mem.read (g.src.addr r c) = new ∧ (s.params.kernel.motionThreshold < g.mm.toNat → new = old) ∧
          (prd = old → new = old) ∧
          ((old.toNat ≤ new.toNat ∧ new.toNat ≤ prd.toNat) ∨ (prd.toNat ≤ new.toNat ∧ new.toNat ≤ old.toNat))) ∧
      (∀ a, ¬g.MayWrite a → u.mem.read a = s.mem.read a) ∧
      (s.params.kernel.motionThreshold < g.mm.toNat → ∀ a, a ∉ g.out.addresses → u.mem.read a = s.mem.read a)

/-- R132: with the same operands, both within contract, `FLT.CHROMA` and `FLT.LUMA` both complete and the memories after
them agree on the chroma command's `FP_O ∪ FP_S`. -/
def Obligations.ChromaIsLumaOnTheCorner : Prop :=
  ∀ (mode : Bit) (pb : Address) (ps : Stride) (ob : Address) (os : Stride) (sb : Address) (ss : Stride)
      (mm : Motion) (s : State) (n : Nat) (I : Inst), s.mem.wf → s.insts[n]? = some I →
    I.status ≠ 0b01#2 →
    let l : Instr := .fltLuma mode pb ps ob os sb ss mm
    let k : Instr := .fltChroma mode pb ps ob os sb ss mm
    (cmdRegsOf l).InDomain s.params → (cmdRegsOf k).InDomain s.params →
    s.ClearFor n (cmdRegsOf l) → s.ClearFor n (cmdRegsOf k) →
    ∃ ul uc, core.run (synchronousCall n l).length { s with agenda := synchronousCall n l } = .next ul ∧
      core.run (synchronousCall n k).length { s with agenda := synchronousCall n k } = .next uc ∧
      ∀ a, (cmdRegsOf k).MayWrite a → uc.mem.read a = ul.mem.read a

/-- R28: the effect of a command is a function of the descriptor, the constants and the two footprints it reads: two states
that agree on these end with the same `output` and `source` footprints, whatever else differs (other memory, the registers a
previous command left, the instance that runs it). -/
def Obligations.EffectDependsOnlyOnDescriptorAndFootprints : Prop :=
  ∀ (i : Instr) (s s' : State) (n n' : Nat) (I I' : Inst), s.mem.wf → s'.mem.wf →
    s.params.kernel = s'.params.kernel → s.agenda = synchronousCall n i → s'.agenda = synchronousCall n' i →
    s.insts[n]? = some I → s'.insts[n']? = some I' → I.status ≠ 0b01#2 → I'.status ≠ 0b01#2 →
    (cmdRegsOf i).InDomain s.params → (cmdRegsOf i).InDomain s'.params →
    s.ClearFor n (cmdRegsOf i) → s'.ClearFor n' (cmdRegsOf i) →
    (∀ a, a ∈ (cmdRegsOf i).pred.addresses ∨ a ∈ (cmdRegsOf i).src.addresses → s.mem.read a = s'.mem.read a) →
    ∃ u u', core.run s.agenda.length s = .next u ∧ core.run s'.agenda.length s' = .next u' ∧
      ∀ a, (cmdRegsOf i).MayWrite a → u.mem.read a = u'.mem.read a

/-! ## The host's side (70_reset_and_hazards.md) -/

/-- R160, R161, R33: a reset of an instance that is not BUSY gives it `ST = IDLE`, counters (0, 0) and no register values,
leaves memory and the other instances alone, and gives the host no footprint back (R164); of a BUSY instance it is refused.
That what waits on the interface stays is the model's choice (log entry 11). -/
def Obligations.ResetIsForInstancesThatAreNotBusy : Prop :=
  ∀ (s : State) (n : Nat) (I : Inst), s.insts[n]? = some I →
    (I.status = 0b01#2 → perform (.reset n) s = .refused .rstBusy) ∧
    (I.status ≠ 0b01#2 → perform (.reset n) s = .next { s with
      insts := s.insts.set n {
        cmd := none, row := 0#5, col := 0#5, status := 0b00#2, offered := I.offered, handed := I.handed } })

/-- R54, R142 CV6, R164: the host may not read or write a byte of a footprint from the offer of the descriptor until it has
read DONE: a byte of a waiting command, of a running one, or of an accepted one whose DONE is unread. -/
def Obligations.HostAccessToAHandedOverByteIsRefused : Prop :=
  ∀ (s : State) (n : Nat) (I : Inst) (g : CmdRegs) (a : Address), s.insts[n]? = some I →
    ((∃ d i, I.offered = some d ∧ decode d = .ok i ∧ g = cmdRegsOf i) ∨ (I.status = 0b01#2 ∧ I.cmd = some g) ∨
      g ∈ I.handed) → g.Touches a.toNat →
    perform (.hostRead a) s = .refused .cv6 ∧ ∀ v, perform (.hostWrite a v) s = .refused .cv6

/-- R54, R170: a byte that no instance holds is the host's: a read returns it and changes nothing else, a write stores it,
and a read after the write returns what was written. -/
def Obligations.HostReadsAndWritesItsOwnBytes : Prop :=
  ∀ (s : State) (a : Address) (v : Byte), s.mem.wf → (∀ I ∈ s.insts, ∀ g ∈ I.held, ¬g.Touches a.toNat) →
    s.params.allocated a.toNat = true →
    perform (.hostRead a) s = .next { s with seen := some (.byte a (s.mem.read a.toNat)) } ∧
    ∃ t u, perform (.hostWrite a v) s = .next t ∧ (∀ x, x ≠ a.toNat → t.mem.read x = s.mem.read x) ∧
      t.insts = s.insts ∧ t.params = s.params ∧ perform (.hostRead a) t = .next u ∧ u.seen = some (.byte a v)

/-- R26, R168, R170: a read of STATUS returns `ST` and changes no register; when it returns DONE the host has its buffers
back, but for those of a descriptor that waits; otherwise it has not. -/
def Obligations.ReadingDoneGivesTheBuffersBack : Prop :=
  ∀ (s : State) (n : Nat) (I : Inst), s.insts[n]? = some I →
    ∃ t J, perform (.readStatus n) s = .next t ∧ t.seen = some (.status n I.status) ∧ t.insts = s.insts.set n J ∧
      J.cmd = I.cmd ∧ J.row = I.row ∧ J.col = I.col ∧ J.status = I.status ∧ J.offered = I.offered ∧ t.mem = s.mem ∧
      (I.status = 0b10#2 → J.held = I.waiting) ∧ (I.status ≠ 0b10#2 → J.held = I.held)

/-- R30: the host offers a well-formed descriptor at any time and may withdraw it; neither changes a register, a counter,
`ST` or memory. That an offer replaces one that waits is log entry 9; that the footprints of one that waits no longer are the
host's at once is log entry 16. -/
def Obligations.OfferAndWithdrawOnlyChangeWhatWaits : Prop :=
  ∀ (s : State) (n : Nat) (I : Inst) (d : Desc), s.insts[n]? = some I → Desc.wellFormed d = true →
    perform (.offer n d) s = .next { s with insts := s.insts.set n { I with offered := some d } } ∧
      perform (.withdraw n) s = .next { s with insts := s.insts.set n { I with offered := none } }

/-! ## Whole-machine rules and the invariant -/

/-- R33: after reset every instance is IDLE with counters (0, 0) and no register values, there is at least one, and the
machine does nothing until a descriptor is offered. That nothing waits and memory lists nothing is the model's choice (log
entries 5 and 9), and so is that a step answers the same state when nothing is enabled (log entry 7). -/
def Obligations.ResetStateIsIdleAndStays : Prop :=
  (∀ I ∈ State.reset.insts, I.status = 0b00#2 ∧ I.row = 0#5 ∧ I.col = 0#5 ∧ I.cmd = none) ∧
    1 ≤ State.reset.insts.length ∧ step State.reset = .next State.reset

/-- The invariant holds at reset. -/
def Obligations.InvariantHoldsAtReset : Prop := State.reset.Inv

/-- Every step keeps the invariant: canonical memory inside the space, legal constants, `ST` never 0b11, counters inside the
block or (0, 0), BUSY with a command within contract, no two accepted commands in conflict (R24 to R26, R55, R87, R142). -/
def Obligations.EveryStepKeepsTheInvariant : Prop :=
  ∀ s t : State, s.Inv → step s = .next t → t.Inv

/-- R117, R50: in a state of the invariant the pixel step of a BUSY instance always completes. -/
def Obligations.BusyInstanceCanAlwaysStep : Prop :=
  ∀ (s : State) (n : Nat) (I : Inst), s.Inv → s.insts[n]? = some I → I.status = 0b01#2 →
    ∃ t, perform (.pixel n) s = .next t

/-- R140: in a state of the invariant the machine left to itself (an empty agenda) never stops with a fault, and stops at all
only to refuse a waiting command. -/
def Obligations.MachineLeftToItselfNeverFaults : Prop :=
  ∀ s : State, s.Inv → s.agenda = [] →
    (∀ f, step s ≠ .fault f) ∧ ((∀ I ∈ s.insts, I.offered = none) → ∃ t, step s = .next t)

/-- R27, R32: no step changes the constants, the allocated set or the number of instances. -/
def Obligations.ConstantsNeverChange : Prop :=
  ∀ s t : State, step s = .next t → t.params = s.params ∧ t.insts.length = s.insts.length

/-- R22: the command registers of an instance change only at its own accept transition (when it is not BUSY) or its reset.
In every other transition that completes they keep their values. -/
def Obligations.RegistersChangeOnlyAtAcceptOrReset : Prop :=
  ∀ (e : Event) (s t : State) (n : Nat) (I J : Inst), perform e s = .next t → s.insts[n]? = some I →
    t.insts[n]? = some J → J.cmd ≠ I.cmd → (e = .accept n ∨ e = .reset n) ∧ I.status ≠ 0b01#2

/-- R21, R40: memory changes only by a pixel step of a BUSY instance or by a write of the host. -/
def Obligations.MemoryChangesOnlyByPixelStepOrHostWrite : Prop :=
  ∀ (e : Event) (s t : State), perform e s = .next t → t.mem ≠ s.mem →
    (∃ n I, e = .pixel n ∧ s.insts[n]? = some I ∧ I.status = 0b01#2) ∨ ∃ a v, e = .hostWrite a v

/-- R20, R148: a transition of one instance changes nothing of another, and a host access to memory changes no instance. -/
def Obligations.TransitionsTouchOneInstanceOnly : Prop :=
  ∀ (s t : State) (n m : Nat), m ≠ n →
    (∀ e, (e = .withdraw n ∨ e = .accept n ∨ e = .pixel n ∨ e = .reset n ∨ e = .readStatus n ∨ ∃ d, e = .offer n d) →
      perform e s = .next t → t.insts[m]? = s.insts[m]?) ∧
    ∀ e, (∃ a, e = .hostRead a) ∨ (∃ a v, e = .hostWrite a v) → perform e s = .next t → t.insts = s.insts

/-- R116, R146: an accepted command always runs on: whatever transition completes, a BUSY instance keeps its command and
stays BUSY, except that its own pixel step at the last position makes it DONE. -/
def Obligations.NothingSuspendsABusyInstance : Prop :=
  ∀ (e : Event) (s t : State) (n : Nat) (I : Inst), perform e s = .next t → s.insts[n]? = some I → I.status = 0b01#2 →
    ∃ J, t.insts[n]? = some J ∧ J.cmd = I.cmd ∧
      (J.status = 0b01#2 ∨ (J.status = 0b10#2 ∧ e = .pixel n ∧
        ∃ g, I.cmd = some g ∧ I.row.toNat + 1 = g.extent.h ∧ I.col.toNat + 1 = g.extent.w)) ∧
      (e ≠ .pixel n → J.row = I.row ∧ J.col = I.col)

/-- A run that is over stays as it is. R171 defines when a run is over; that a waiting descriptor keeps it from being over is
log entry 17, and that step answers the same state when nothing is enabled is the model's choice in log entry 7. -/
def Obligations.FinishedRunStaysFinished : Prop :=
  ∀ s : State, s.over → step s = .next s
end

