-- ==== Sys2Proof/Laws/Encoding.lean ====
section
/-! SUPPORT. The fields of format `D256` (spec/30_encoding.md R66): each is read as it was laid out, and the fields of a
descriptor whose reserved bits are zero lay it out again. -/

namespace Sys2Proof

variable (w0 : Word) (pb : Address) (ps : Stride) (ob : Address) (os : Stride) (sb : Address) (ss : Stride) (mm : Motion)

/-- Bit `i` of a laid-out descriptor: the operand fields stand one after the other above the control word. -/
theorem getLsbD_descOfFields (i : Nat) : (descOfFields w0 pb ps ob os sb ss mm).getLsbD i =
    if i < 32 then w0.getLsbD i
    else if i < 64 then pb.getLsbD (i - 32)
    else if i < 96 then ps.getLsbD (i - 64)
    else if i < 128 then ob.getLsbD (i - 96)
    else if i < 160 then os.getLsbD (i - 128)
    else if i < 192 then sb.getLsbD (i - 160)
    else if i < 224 then ss.getLsbD (i - 192)
    else mm.getLsbD (i - 224) := by
  simp only [descOfFields, BitVec.getLsbD_append, Config.addressWidth, Config.strideWidth]
  split_ifs <;> first | omega | rfl

/-- Bit `i` of the control word. -/
theorem getLsbD_controlWord (opc : BitVec 8) (mode : Bit) (i : Nat) : (controlWord opc mode).getLsbD i =
    if i < 8 then opc.getLsbD i else if i < 9 then mode.getLsbD (i - 8) else false := by
  simp only [controlWord, BitVec.getLsbD_append, BitVec.getLsbD_zero]
  split_ifs <;> first | omega | rfl

/-- Each operand field is read as it was laid out. -/
theorem descFields_descOfFields :
    descBase (descOfFields w0 pb ps ob os sb ss mm) 1 = pb ∧ descStride (descOfFields w0 pb ps ob os sb ss mm) 2 = ps ∧
      descBase (descOfFields w0 pb ps ob os sb ss mm) 3 = ob ∧ descStride (descOfFields w0 pb ps ob os sb ss mm) 4 = os ∧
      descBase (descOfFields w0 pb ps ob os sb ss mm) 5 = sb ∧ descStride (descOfFields w0 pb ps ob os sb ss mm) 6 = ss ∧
      descMotion (descOfFields w0 pb ps ob os sb ss mm) = mm := by
  refine ⟨?_, ?_, ?_, ?_, ?_, ?_, ?_⟩ <;>
  · apply BitVec.eq_of_getLsbD_eq
    intro i (hi : i < 32)
    simp only [descBase, descStride, descMotion, descField, BitVec.getLsbD_extractLsb', getLsbD_descOfFields,
      Config.addressWidth, Config.strideWidth, Config.motionWidth, hi, decide_true, Bool.true_and]
    repeat rw [if_neg (by omega)]
    try rw [if_pos (by omega)]
    exact congrArg _ (by omega)

/-- The opcode, the mode and the reserved bits are read as the encoder writes them. -/
theorem descControl_descOfFields (opc : BitVec 8) (mode : Bit) :
    descOpcode (descOfFields (controlWord opc mode) pb ps ob os sb ss mm) = opc ∧
      descMode (descOfFields (controlWord opc mode) pb ps ob os sb ss mm) = mode ∧
      descReserved (descOfFields (controlWord opc mode) pb ps ob os sb ss mm) = 0#23 := by
  refine ⟨?_, ?_, ?_⟩ <;>
  · apply BitVec.eq_of_getLsbD_eq
    intro i hi
    simp only [descOpcode, descMode, descReserved, BitVec.getLsbD_extractLsb', getLsbD_descOfFields, getLsbD_controlWord,
      hi, decide_true, Bool.true_and, BitVec.getLsbD_zero]
    split_ifs <;> first | omega | rfl | exact congrArg _ (by omega)

/-- A descriptor whose reserved bits are zero is laid out from its own fields. -/
theorem descOfFields_fields {d : Desc} (h : descReserved d = 0#23) :
    descOfFields (controlWord (descOpcode d) (descMode d)) (descBase d 1) (descStride d 2) (descBase d 3) (descStride d 4)
      (descBase d 5) (descStride d 6) (descMotion d) = d := by
  apply BitVec.eq_of_getLsbD_eq
  intro i hi
  have hr : ∀ j < 23, d.getLsbD (9 + j) = false := fun j hj => by
    have := congrArg (fun v => v.getLsbD j) h
    simpa [descReserved, BitVec.getLsbD_extractLsb', hj] using this
  simp only [getLsbD_descOfFields, getLsbD_controlWord, descOpcode, descMode, descBase, descStride, descMotion, descField,
    BitVec.getLsbD_extractLsb', Config.addressWidth, Config.strideWidth, Config.motionWidth]
  split_ifs with h1 h2 h3
  · simp [h2]
  · have : i = 8 := by omega
    subst this; simp
  · have := hr (i - 9) (by omega)
    rw [← this]; exact congrArg _ (by omega)
  all_goals
    rw [decide_eq_true (by omega), Bool.true_and]
    exact congrArg _ (by omega)

end Sys2Proof
end

