-- ==== Sys2Proof/Laws/Footprint.lean ====
section
/-! SUPPORT. Footprints: their addresses, membership, disjointness, and the checks over them in the words of the rules. -/

namespace Sys2Proof.Machine

open Sys2Proof

theorem Footprint.mem_addresses {f : Footprint} {a : Nat} :
    a ∈ f.addresses ↔ ∃ r < f.extent.h, ∃ c < f.extent.w, a = f.addr r c := by
  simp only [Footprint.addresses, List.mem_flatMap, List.mem_range, List.mem_map]
  constructor
  · rintro ⟨r, hr, c, hc, rfl⟩; exact ⟨r, hr, c, hc, rfl⟩
  · rintro ⟨r, hr, c, hc, rfl⟩; exact ⟨r, hr, c, hc, rfl⟩

theorem Footprint.addr_mem {f : Footprint} {r c : Nat} (hr : r < f.extent.h) (hc : c < f.extent.w) :
    f.addr r c ∈ f.addresses := Footprint.mem_addresses.2 ⟨r, hr, c, hc, rfl⟩

theorem Footprint.contains_iff {f : Footprint} {a : Nat} : f.contains a = true ↔ a ∈ f.addresses := by
  simp only [Footprint.mem_addresses, Footprint.contains, List.any_eq_true, List.mem_range, Bool.and_eq_true,
    decide_eq_true_eq]
  simp only [Footprint.addr]
  constructor
  · rintro ⟨r, hr, h1, h2⟩; exact ⟨r, hr, a - (f.base + r * f.stride), by omega, by omega⟩
  · rintro ⟨r, hr, c, hc, rfl⟩; exact ⟨r, hr, by omega, by omega⟩

theorem Footprint.intersects_eq_false {f g : Footprint} :
    f.intersects g = false ↔ ∀ a ∈ f.addresses, a ∉ g.addresses := by
  simp only [Footprint.intersects, List.any_eq_false, Footprint.contains_iff]

theorem Footprint.intersects_comm (f g : Footprint) : f.intersects g = g.intersects f := by
  rw [Bool.eq_iff_iff, ← not_iff_not, Bool.not_eq_true, Bool.not_eq_true, Footprint.intersects_eq_false,
    Footprint.intersects_eq_false]
  exact ⟨fun h a ha hb => h a hb ha, fun h a ha hb => h a hb ha⟩

/-- With a stride of at least the width, positions have distinct addresses (R59). -/
theorem Footprint.addr_inj {f : Footprint} (hs : f.extent.w ≤ f.stride) {r c r' c' : Nat} (hc : c < f.extent.w)
    (hc' : c' < f.extent.w) (h : f.addr r c = f.addr r' c') : r = r' ∧ c = c' := by
  simp only [Footprint.addr] at h
  have hr : r = r' := by
    rcases Nat.lt_trichotomy r r' with hl | hl | hl
    · have : (r + 1) * f.stride ≤ r' * f.stride := Nat.mul_le_mul_right _ hl
      rw [Nat.add_mul] at this
      omega
    · exact hl
    · have : (r' + 1) * f.stride ≤ r * f.stride := Nat.mul_le_mul_right _ hl
      rw [Nat.add_mul] at this
      omega
  subst hr
  exact ⟨rfl, by omega⟩

theorem Footprint.addr_le_last {f : Footprint} {r c : Nat} (hr : r < f.extent.h) (hc : c < f.extent.w) :
    f.addr r c ≤ f.addr (f.extent.h - 1) (f.extent.w - 1) := by
  have : r * f.stride ≤ (f.extent.h - 1) * f.stride := Nat.mul_le_mul_right _ (by omega)
  simp only [Footprint.addr]
  omega

theorem Footprint.addr_lt_space {f : Footprint} (h : f.passesTop = false) {r c : Nat} (hr : r < f.extent.h)
    (hc : c < f.extent.w) : f.addr r c < Config.addressSpace := by
  have := Footprint.addr_le_last hr hc
  simp only [Footprint.passesTop, decide_eq_false_iff_not] at h
  omega

theorem CmdRegs.touches_iff {c : CmdRegs} {a : Nat} : c.touches a = true ↔ c.Touches a := by
  simp only [CmdRegs.touches, CmdRegs.Touches, Bool.or_eq_true, Footprint.contains_iff, or_assoc]

theorem CmdRegs.conflicts_eq_false {c d : CmdRegs} : c.conflicts d = false ↔ c.Apart d := by
  simp only [CmdRegs.conflicts, Bool.or_eq_false_iff, Footprint.intersects_eq_false, CmdRegs.Apart, CmdRegs.MayWrite,
    CmdRegs.Touches]
  constructor
  · rintro ⟨⟨⟨⟨⟨⟨⟨h1, h2⟩, h3⟩, h4⟩, h5⟩, h6⟩, h7⟩, h8⟩ a
    refine ⟨?_, ?_⟩
    · rintro ⟨h | h, k | k | k⟩
      exacts [h3 a h k, h1 a h k, h2 a h k, h6 a h k, h4 a h k, h5 a h k]
    · rintro ⟨k | k, h | h | h⟩
      exacts [h7 a h k, h1 a h k, h4 a h k, h8 a h k, h2 a h k, h5 a h k]
  · intro h
    exact ⟨⟨⟨⟨⟨⟨⟨fun a x y => (h a).1 ⟨.inl x, .inr (.inl y)⟩, fun a x y => (h a).1 ⟨.inl x, .inr (.inr y)⟩⟩,
      fun a x y => (h a).1 ⟨.inl x, .inl y⟩⟩, fun a x y => (h a).1 ⟨.inr x, .inr (.inl y)⟩⟩,
      fun a x y => (h a).1 ⟨.inr x, .inr (.inr y)⟩⟩, fun a x y => (h a).1 ⟨.inr x, .inl y⟩⟩,
      fun a x y => (h a).2 ⟨.inl y, .inl x⟩⟩, fun a x y => (h a).2 ⟨.inr y, .inl x⟩⟩

theorem CmdRegs.apart_comm {c d : CmdRegs} (h : c.Apart d) : d.Apart c := fun a => ⟨(h a).2, (h a).1⟩

/-- The extent of a command is 16×16, 8×8, or empty for an opcode that names no command. -/
theorem extentOf_cases (o : BitVec 8) :
    (o = 0x01#8 ∧ extentOf o = ⟨16, 16⟩) ∨ (o = 0x02#8 ∧ extentOf o = ⟨8, 8⟩) ∨
      (o ≠ 0x01#8 ∧ o ≠ 0x02#8 ∧ extentOf o = ⟨0, 0⟩) := by
  by_cases h1 : o = 0x01#8
  · exact .inl ⟨h1, by simp [extentOf, h1, Config.luma]⟩
  · by_cases h2 : o = 0x02#8
    · exact .inr (.inl ⟨h2, by simp [extentOf, h2, Config.chroma]⟩)
    · exact .inr (.inr ⟨h1, h2, by simp [extentOf, h1, h2]⟩)

theorem CmdRegs.extent_le (c : CmdRegs) : c.extent.w ≤ 16 ∧ c.extent.h ≤ 16 := by
  rcases extentOf_cases c.opc with ⟨-, h⟩ | ⟨-, h⟩ | ⟨-, -, h⟩ <;> simp [CmdRegs.extent, h]

theorem CmdRegs.extent_pos {c : CmdRegs} (h : c.opc = 0x01#8 ∨ c.opc = 0x02#8) : 0 < c.extent.w ∧ 0 < c.extent.h := by
  rcases h with h | h <;> simp [CmdRegs.extent, extentOf, h, Config.luma, Config.chroma]

@[simp] theorem CmdRegs.pred_extent (c : CmdRegs) : c.pred.extent = c.extent := rfl
@[simp] theorem CmdRegs.out_extent (c : CmdRegs) : c.out.extent = c.extent := rfl
@[simp] theorem CmdRegs.src_extent (c : CmdRegs) : c.src.extent = c.extent := rfl

/-- The executable checks CV2 to CV5 say what R142 says. -/
theorem CmdRegs.inDomain_iff {c : CmdRegs} {p : Params} :
    c.InDomain p ↔ c.strideShort = false ∧ c.passesTop = false ∧ c.selfOverlap = false ∧ c.notAllocated p = false := by
  have hs : c.strideShort = false ↔
      c.extent.w ≤ c.ps.toNat ∧ c.extent.w ≤ c.os.toNat ∧ c.extent.w ≤ c.ss.toNat := by
    simp [CmdRegs.strideShort, and_assoc]
  have ht : c.passesTop = false ↔ c.pb.toNat + (c.extent.h - 1) * c.ps.toNat + (c.extent.w - 1) < 2 ^ 32 ∧
      c.ob.toNat + (c.extent.h - 1) * c.os.toNat + (c.extent.w - 1) < 2 ^ 32 ∧
      c.sb.toNat + (c.extent.h - 1) * c.ss.toNat + (c.extent.w - 1) < 2 ^ 32 := by
    simp only [CmdRegs.passesTop, Footprint.passesTop, Bool.or_eq_false_iff, decide_eq_false_iff_not, Nat.not_le,
      and_assoc]
    exact Iff.rfl
  have ho : c.selfOverlap = false ↔ (∀ a ∈ c.pred.addresses, a ∉ c.out.addresses) ∧
      (∀ a ∈ c.pred.addresses, a ∉ c.src.addresses) ∧ (∀ a ∈ c.out.addresses, a ∉ c.src.addresses) := by
    simp only [CmdRegs.selfOverlap, Bool.or_eq_false_iff, Footprint.intersects_eq_false, and_assoc]
  have ha : c.notAllocated p = false ↔
      ∀ a, (a ∈ c.pred.addresses ∨ a ∈ c.out.addresses ∨ a ∈ c.src.addresses) → p.allocated a = true := by
    simp only [CmdRegs.notAllocated, Bool.or_eq_false_iff, List.any_eq_false, Bool.not_eq_true', Bool.not_eq_false]
    constructor
    · rintro ⟨⟨h1, h2⟩, h3⟩ a (h | h | h)
      exacts [h1 a h, h2 a h, h3 a h]
    · exact fun h => ⟨⟨fun a k => h a (.inl k), fun a k => h a (.inr (.inl k))⟩, fun a k => h a (.inr (.inr k))⟩
  rw [hs, ht, ho, ha]
  exact ⟨fun ⟨h1, h2, h3, h4⟩ => ⟨h1, h2, h3, h4⟩, fun ⟨h1, h2, h3, h4⟩ => ⟨h1, h2, h3, h4⟩⟩

theorem CmdRegs.admissible_iff {c : CmdRegs} {p : Params} :
    c.admissible p ↔ (c.opc = 0x01#8 ∨ c.opc = 0x02#8) ∧ c.InDomain p := by
  rw [CmdRegs.inDomain_iff]; rfl

/-- The executable check CV7 says what R142 says. -/
theorem State.races_eq_false {s : State} {n : Nat} {c : CmdRegs} : s.races n c = false ↔ s.ClearFor n c := by
  simp only [State.races, List.any_eq_false, Bool.and_eq_true, decide_eq_true_eq, List.any_eq_true, not_and, not_exists,
    Bool.not_eq_true, CmdRegs.conflicts_eq_false, State.ClearFor]
  constructor
  · intro h m J hm hJ d hd
    exact h (J, m) (List.mem_zipIdx_iff_getElem?.2 hJ) hm d hd
  · rintro h ⟨J, m⟩ hx hm d hd
    exact h m J hm (List.mem_zipIdx_iff_getElem?.1 hx) d hd

/-- A command is within contract exactly when no check fires. -/
theorem contractBreach_eq_none {s : State} {n : Nat} {c : CmdRegs} :
    contractBreach s n c = none ↔ c.InDomain s.params ∧ s.ClearFor n c := by
  rw [CmdRegs.inDomain_iff, ← State.races_eq_false, contractBreach]
  split_ifs <;> simp_all

end Sys2Proof.Machine
end

