-- ==== Sys2Proof/Laws/Kernel.lean ====
section
/-! SUPPORT. The kernel's functions, one law each: ranges of the difference, of the band and of the magnitude. -/

namespace Sys2Proof.Machine

open Sys2Proof

theorem pixelDiff_natAbs_le (p s : Byte) : (pixelDiff p s).natAbs ≤ 255 := by
  have := p.isLt
  have := s.isLt
  simp only [pixelDiff]
  omega

theorem bandOf_le (k : KCfg) (a : Nat) : bandOf k a ≤ k.numBands := List.findIdx_le_length

/-- The band is the least whose threshold reaches `a` (R90). -/
theorem bandOf_spec {k : KCfg} {a i : Nat} (hi : i ≤ k.numBands) :
    bandOf k a = i ↔
      (∀ h : i < k.bands.length, a ≤ (k.bands[i]).threshold) ∧
        ∀ j, ∀ h : j < k.bands.length, j < i → (k.bands[j]).threshold < a := by
  rcases Nat.lt_or_ge i k.bands.length with h | h
  · rw [bandOf, List.findIdx_eq h]
    simp only [decide_eq_true_eq, decide_eq_false_iff_not, Nat.not_le]
    exact ⟨fun ⟨h1, h2⟩ => ⟨fun _ => h1, fun j _ hj => h2 j hj⟩, fun ⟨h1, h2⟩ => ⟨h1 h, fun j hj => h2 j (hj.trans h) hj⟩⟩
  · have hl : i = k.bands.length := Nat.le_antisymm hi h
    subst hl
    rw [bandOf, List.findIdx_eq_length]
    simp only [decide_eq_false_iff_not, Nat.not_le, Nat.lt_irrefl, IsEmpty.forall_iff, true_and]
    constructor
    · exact fun hx j hj _ => hx _ (List.getElem_mem hj)
    · intro hx x hx'
      obtain ⟨j, hj, rfl⟩ := List.getElem_of_mem hx'
      exact hx j hj hj

theorem magnitude_le (k : KCfg) (mode : Bit) (a : Nat) : magnitude k mode a ≤ a := by
  simp only [magnitude]
  split_ifs
  · exact Nat.zero_le a
  · exact Nat.min_le_left a _

/-- The correction and its magnitude (R93). -/
theorem correction_natAbs (k : KCfg) (mode : Bit) (p s : Byte) :
    (correction k mode p s).natAbs = magnitude k mode (pixelDiff p s).natAbs := by
  simp only [correction]
  split_ifs <;> simp

/-- A value between 0 and 255 is not changed by the clamp (R94). -/
theorem clamp255_of_range {x : Int} (h0 : 0 ≤ x) (h1 : x ≤ 255) : ((clamp255 x).toNat : Int) = x := by
  have : max 0 (min 255 x) = x := by omega
  simp only [clamp255, this, BitVec.toNat_ofNat]
  omega

end Sys2Proof.Machine
end

