-- ==== Sys2Proof/Laws/Memory.lean ====
section
/-! SUPPORT. What memory operations do: a read after a write, and the canonical form. -/

namespace Sys2Proof.Machine

open Sys2Proof

/-- A write leaves every other byte alone, whatever the form of the list. -/
theorem Memory.read_write_ne (m : Memory) {a x : Nat} (v : Byte) (h : x ≠ a) :
    (m.write a v).read x = m.read x := by
  induction m with
  | nil => simp only [Memory.write]; split_ifs <;> simp [Memory.read, h]
  | cons y m ih =>
    obtain ⟨b, w⟩ := y
    simp only [Memory.write]
    split_ifs <;> simp_all [Memory.read]

/-- An address below every listed one reads as an unlisted byte. -/
theorem Memory.read_unlisted {m : Memory} {a : Nat} (h : ∀ y ∈ m, a ≠ y.1) : m.read a = Config.unwrittenByte := by
  induction m with
  | nil => rfl
  | cons y m ih =>
    have := h y (by simp)
    simp only [Memory.read, this, if_false]
    exact ih fun z hz => h z (by simp [hz])

theorem Memory.wf_tail {y : Host.Cell} {m : Memory} (h : Memory.wf (y :: m)) : Memory.wf m :=
  ⟨(List.pairwise_cons.1 h.1).2, fun z hz => h.2 z (by simp [hz])⟩

theorem Memory.wf_head {y : Host.Cell} {m : Memory} (h : Memory.wf (y :: m)) : ∀ z ∈ m, y.1 < z.1 :=
  (List.pairwise_cons.1 h.1).1

/-- In a canonical memory a byte reads as what was written to it. -/
theorem Memory.read_write_self {m : Memory} (h : m.wf) (a : Nat) (v : Byte) : (m.write a v).read a = v := by
  induction m with
  | nil => simp only [Memory.write]; split_ifs with h1 <;> simp [Memory.read, h1]
  | cons y m ih =>
    obtain ⟨b, w⟩ := y
    have hlt := Memory.wf_head h
    simp only [Memory.write]
    split_ifs with h1 h2 h2 h3
    · rw [h2]
      refine Memory.read_unlisted fun z hz => ?_
      rcases List.mem_cons.1 hz with rfl | hz
      · exact Nat.ne_of_lt h1
      · exact Nat.ne_of_lt (h1.trans (hlt z hz))
    · simp [Memory.read]
    · subst h2; rw [h3]
      exact Memory.read_unlisted fun z hz => Nat.ne_of_lt (hlt z hz)
    · simp [Memory.read]
    · simp only [Memory.read, h2, if_false]
      exact ih (Memory.wf_tail h)

/-- What a read gives after a write. -/
theorem Memory.read_write {m : Memory} (h : m.wf) (a x : Nat) (v : Byte) :
    (m.write a v).read x = if x = a then v else m.read x := by
  split_ifs with hx
  · subst hx; exact Memory.read_write_self h x v
  · exact Memory.read_write_ne m v hx

/-- The entries of a written memory are the written byte and old entries. -/
theorem Memory.mem_write {m : Memory} {a : Nat} {v : Byte} {y : Host.Cell} (h : y ∈ m.write a v) :
    y = (a, v) ∨ y ∈ m := by
  induction m with
  | nil => simp only [Memory.write] at h; split_ifs at h <;> simp_all
  | cons z m ih =>
    obtain ⟨b, w⟩ := z
    simp only [Memory.write] at h
    split_ifs at h <;> simp only [List.mem_cons] at h ⊢ <;> tauto

/-- A written memory lists no byte that reads as an unlisted one. -/
theorem Memory.write_listed {m : Memory} {a : Nat} {v : Byte} (h : ∀ x ∈ m, x.2 ≠ Config.unwrittenByte) :
    ∀ x ∈ m.write a v, x.2 ≠ Config.unwrittenByte := by
  induction m with
  | nil =>
    simp only [Memory.write]
    split_ifs with hv <;> simp [hv]
  | cons y m ih =>
    obtain ⟨b, w⟩ := y
    have hw := h (b, w) (by simp)
    have hm : ∀ x ∈ m, x.2 ≠ Config.unwrittenByte := fun x hx => h x (by simp [hx])
    simp only [Memory.write]
    split_ifs
    · exact h
    · rename_i hv
      exact fun x hx => (List.mem_cons.1 hx).elim (fun e => e ▸ hv) (h x)
    · exact hm
    · rename_i hv
      exact fun x hx => (List.mem_cons.1 hx).elim (fun e => e ▸ hv) (hm x)
    · exact fun x hx => (List.mem_cons.1 hx).elim (fun e => e ▸ hw) (ih hm x)

/-- Every write keeps the canonical form. -/
theorem Memory.write_wf {m : Memory} (h : m.wf) (a : Nat) (v : Byte) : (m.write a v).wf := by
  refine ⟨?_, Memory.write_listed h.2⟩
  induction m with
  | nil => simp only [Memory.write]; split_ifs <;> simp
  | cons y m ih =>
    obtain ⟨b, w⟩ := y
    have hlt := Memory.wf_head h
    have ht := Memory.wf_tail h
    simp only [Memory.write]
    split_ifs with h1 h2 h2 h3
    · exact h.1
    · refine List.pairwise_cons.2 ⟨fun z hz => ?_, h.1⟩
      rcases List.mem_cons.1 hz with rfl | hz
      · exact h1
      · exact h1.trans (hlt z hz)
    · exact ht.1
    · subst h2; exact List.pairwise_cons.2 ⟨hlt, ht.1⟩
    · refine List.pairwise_cons.2 ⟨fun z hz => ?_, ih ht⟩
      rcases Memory.mem_write hz with rfl | hz
      · exact Nat.lt_of_le_of_ne (Nat.le_of_not_lt h1) (Ne.symm h2)
      · exact hlt z hz

/-- A write inside the address space lists no address outside it. -/
theorem Memory.write_inSpace {m : Memory} (h : m.inSpace) {a : Nat} (ha : a < Config.addressSpace) (v : Byte) :
    (m.write a v).inSpace := fun y hy => by
  rcases Memory.mem_write hy with rfl | hy
  · exact ha
  · exact h y hy

/-- The head of a canonical memory reads as its byte, and no smaller address is listed. -/
theorem Memory.read_cons_of_lt {y : Host.Cell} {m : Memory} (h : Memory.wf (y :: m)) {a : Nat} (ha : a < y.1) :
    Memory.read (y :: m) a = Config.unwrittenByte :=
  Memory.read_unlisted fun z hz => by
    rcases List.mem_cons.1 hz with rfl | hz
    · exact Nat.ne_of_lt ha
    · exact Nat.ne_of_lt (ha.trans (Memory.wf_head h z hz))

/-- Canonical memories that read alike everywhere are equal. -/
theorem Memory.ext_read {m m' : Memory} (h : m.wf) (h' : m'.wf) (he : ∀ a, m.read a = m'.read a) : m = m' := by
  induction m generalizing m' with
  | nil =>
    cases m' with
    | nil => rfl
    | cons y m' =>
      have := he y.1
      simp only [Memory.read, if_true] at this
      exact absurd this.symm (h'.2 y (by simp))
  | cons x m ih =>
    cases m' with
    | nil =>
      have := he x.1
      simp only [Memory.read, if_true] at this
      exact absurd this (h.2 x (by simp))
    | cons y m' =>
      have hxy : x.1 = y.1 := by
        rcases Nat.lt_trichotomy x.1 y.1 with hl | hl | hl
        · have := he x.1
          rw [Memory.read_cons_of_lt h' hl] at this
          simp only [Memory.read, if_true] at this
          exact absurd this (h.2 x (by simp))
        · exact hl
        · have := he y.1
          rw [Memory.read_cons_of_lt h hl] at this
          simp only [Memory.read, if_true] at this
          exact absurd this.symm (h'.2 y (by simp))
      have hv : x.2 = y.2 := by
        have := he x.1
        simpa [Memory.read, hxy] using this
      have : x = y := Prod.ext hxy hv
      subst this
      congr 1
      refine ih (Memory.wf_tail h) (Memory.wf_tail h') fun a => ?_
      by_cases ha : a = x.1
      · subst ha
        rw [Memory.read_unlisted fun z hz => Nat.ne_of_lt (Memory.wf_head h z hz),
          Memory.read_unlisted fun z hz => Nat.ne_of_lt (Memory.wf_head h' z hz)]
      · simpa [Memory.read, ha] using he a

end Sys2Proof.Machine
end

