-- ==== Sys2Proof/Laws/PerInstr.lean ====
section
/-! SUPPORT. The per-instruction family `EncodeWellFormed`: the descriptor of every command is well formed
(spec/30_encoding.md R70: the encoder writes zero to `RSV0`). -/

namespace Sys2Proof.Laws.EncodeWellFormed

open Sys2Proof

def Statement (i : Instr) : Prop := Desc.wellFormed (encode i) = true

/-- `W0` of a descriptor is the word it was laid out from. -/
theorem w0_descOfFields (w0 : Word) (pb : Address) (ps : Stride) (ob : Address) (os : Stride) (sb : Address) (ss : Stride)
    (mm : Motion) : Desc.w0 (descOfFields w0 pb ps ob os sb ss mm) = w0 := by
  apply BitVec.eq_of_getLsbD_eq
  intro i hi
  simp only [Desc.w0, BitVec.getLsbD_extractLsb', getLsbD_descOfFields, hi, decide_true, Bool.true_and, Nat.zero_add, if_true]

theorem control_wellFormed (mode : Bit) :
    ((controlWord 0x01#8 mode &&& 0xFF#32) = 0x01#32 ∧ (controlWord 0x01#8 mode &&& 0xFFFFFE00#32) = 0#32) ∧
      ((controlWord 0x02#8 mode &&& 0xFF#32) = 0x02#32 ∧ (controlWord 0x02#8 mode &&& 0xFFFFFE00#32) = 0#32) := by
  revert mode
  decide

theorem fltLuma (mode : Bit) (pb : Address) (ps : Stride) (ob : Address) (os : Stride) (sb : Address) (ss : Stride)
    (mm : Motion) : Statement (.fltLuma mode pb ps ob os sb ss mm) := by
  have h := (control_wellFormed mode).1
  simp [Statement, encode, Desc.wellFormed, Desc.opcodeDefined, Desc.reservedZero, w0_descOfFields, h.1, h.2]

theorem fltChroma (mode : Bit) (pb : Address) (ps : Stride) (ob : Address) (os : Stride) (sb : Address) (ss : Stride)
    (mm : Motion) : Statement (.fltChroma mode pb ps ob os sb ss mm) := by
  have h := (control_wellFormed mode).2
  simp [Statement, encode, Desc.wellFormed, Desc.opcodeDefined, Desc.reservedZero, w0_descOfFields, h.1, h.2]

end Sys2Proof.Laws.EncodeWellFormed
end

