-- ==== Sys2Proof/Laws/State.lean ====
section
/-! SUPPORT. One lemma per field per state update, so that no later proof unfolds a record update. -/

namespace Sys2Proof.Machine

open Sys2Proof

variable (s : State) (n : Nat) (I : Inst) (g : CmdRegs) (a : Nat) (v : Byte)

@[simp] theorem State.writeByte_mem : (s.writeByte a v).mem = s.mem.write a v := rfl
@[simp] theorem State.writeByte_insts : (s.writeByte a v).insts = s.insts := rfl
@[simp] theorem State.writeByte_params : (s.writeByte a v).params = s.params := rfl
@[simp] theorem State.writeByte_agenda : (s.writeByte a v).agenda = s.agenda := rfl
@[simp] theorem State.writeByte_sel : (s.writeByte a v).sel = s.sel := rfl
@[simp] theorem State.writeByte_seen : (s.writeByte a v).seen = s.seen := rfl

@[simp] theorem State.setInst_mem : (s.setInst n I).mem = s.mem := rfl
@[simp] theorem State.setInst_insts : (s.setInst n I).insts = s.insts.set n I := rfl
@[simp] theorem State.setInst_params : (s.setInst n I).params = s.params := rfl
@[simp] theorem State.setInst_agenda : (s.setInst n I).agenda = s.agenda := rfl
@[simp] theorem State.setInst_sel : (s.setInst n I).sel = s.sel := rfl
@[simp] theorem State.setInst_seen : (s.setInst n I).seen = s.seen := rfl

@[simp] theorem State.select_mem : (s.select n).mem = s.mem := rfl
@[simp] theorem State.select_insts : (s.select n).insts = s.insts := rfl
@[simp] theorem State.select_params : (s.select n).params = s.params := rfl
@[simp] theorem State.select_agenda : (s.select n).agenda = s.agenda := rfl
@[simp] theorem State.select_sel : (s.select n).sel = n := rfl
@[simp] theorem State.select_seen : (s.select n).seen = s.seen := rfl

@[simp] theorem Inst.accepted_cmd : (I.accepted g).cmd = some g := rfl
@[simp] theorem Inst.accepted_row : (I.accepted g).row = 0#5 := rfl
@[simp] theorem Inst.accepted_col : (I.accepted g).col = 0#5 := rfl
@[simp] theorem Inst.accepted_status : (I.accepted g).status = stBusy := rfl
@[simp] theorem Inst.accepted_offered : (I.accepted g).offered = none := rfl
@[simp] theorem Inst.accepted_handed : (I.accepted g).handed = g :: I.handed := rfl

variable (e : Extent) (r c : Nat)

@[simp] theorem Inst.advance_cmd : (I.advance e r c).cmd = I.cmd := by
  simp only [Inst.advance]; split_ifs <;> rfl

@[simp] theorem Inst.advance_offered : (I.advance e r c).offered = I.offered := by
  simp only [Inst.advance]; split_ifs <;> rfl

@[simp] theorem Inst.advance_handed : (I.advance e r c).handed = I.handed := by
  simp only [Inst.advance]; split_ifs <;> rfl

/-- A transition starts in a state that differs from the machine's in its agenda alone. -/
@[simp] theorem State.upcoming_mem : s.upcoming.2.mem = s.mem := by
  simp only [State.upcoming]; split <;> rfl

@[simp] theorem State.upcoming_insts : s.upcoming.2.insts = s.insts := by
  simp only [State.upcoming]; split <;> rfl

@[simp] theorem State.upcoming_params : s.upcoming.2.params = s.params := by
  simp only [State.upcoming]; split <;> rfl

@[simp] theorem State.upcoming_sel : s.upcoming.2.sel = s.sel := by
  simp only [State.upcoming]; split <;> rfl

@[simp] theorem State.upcoming_seen : s.upcoming.2.seen = s.seen := by
  simp only [State.upcoming]; split <;> rfl

theorem State.upcoming_cons {s : State} {x : Event} {rest : List Event} (h : s.agenda = x :: rest) :
    s.upcoming = (some x, { s with agenda := rest }) := by simp [State.upcoming, h]

theorem State.upcoming_nil {s : State} (h : s.agenda = []) : s.upcoming = (s.enabled, s) := by
  simp [State.upcoming, h]

end Sys2Proof.Machine
end

