-- ==== Sys2Proof/Laws/Step.lean ====
section
/-! SUPPORT. What one transition can do, said once: every case in which a host action, an accept, a pixel step or a reset
answers a next state, and that state. -/

namespace Sys2Proof.Machine

open Sys2Proof

theorem State.withInst_of {s : State} {n : Nat} {I : Inst} (h : s.insts[n]? = some I) (f : Inst → Result) :
    s.withInst n f = f I := by simp [State.withInst, h]

theorem State.withInst_next {s t : State} {n : Nat} {f : Inst → Result} (h : s.withInst n f = .next t) :
    ∃ I, s.insts[n]? = some I ∧ f I = .next t := by
  simp only [State.withInst] at h
  split at h
  · cases h
  · exact ⟨_, ‹_›, h⟩

/-- The state after the pixel step of command `g` on instance `n` (R115). -/
def pixelNext (s : State) (n : Nat) (I : Inst) (g : CmdRegs) : State :=
  { s with
    mem := pixelMemory s.params.kernel g I.row.toNat I.col.toNat s.mem
    insts := s.insts.set n (I.advance g.extent I.row.toNat I.col.toNat) }

/-- Every way in which a transition answers a next state. -/
inductive Performed : Event → State → State → Prop where
  | offer {s n d I i} : s.insts[n]? = some I → decode d = .ok i →
      Performed (.offer n d) s (s.setInst n { I with offered := some d })
  | withdraw {s n I} : s.insts[n]? = some I → Performed (.withdraw n) s (s.setInst n { I with offered := none })
  | acceptNothing {s n I} : s.insts[n]? = some I → I.offered = none → Performed (.accept n) s s
  | acceptWaits {s n d I i} : s.insts[n]? = some I → I.offered = some d → decode d = .ok i → I.isBusy = true →
      Performed (.accept n) s (s.select n)
  | accept {s n d I i} : s.insts[n]? = some I → I.offered = some d → decode d = .ok i → I.isBusy = false →
      contractBreach s n (cmdRegsOf i) = none →
      Performed (.accept n) s ((s.select n).setInst n (I.accepted (cmdRegsOf i)))
  | pixelIdle {s n I} : s.insts[n]? = some I → I.isBusy = false → Performed (.pixel n) s s
  | pixel {s n I g} : s.insts[n]? = some I → I.isBusy = true → I.cmd = some g → I.row.toNat < g.extent.h →
      I.col.toNat < g.extent.w → pixelAccessible s.params g I.row.toNat I.col.toNat = true →
      Performed (.pixel n) s (pixelNext s n I g)
  | reset {s n I} : s.insts[n]? = some I → I.isBusy = false →
      Performed (.reset n) s (s.setInst n { Inst.reset with offered := I.offered, handed := I.handed })
  | readStatus {s n I} : s.insts[n]? = some I → Performed (.readStatus n) s
      { s.setInst n { I with handed := if I.isDone then [] else I.handed } with seen := some (.status n I.status) }
  | hostRead {s a} : s.isHeld a.toNat = false → s.params.accessible a.toNat = true →
      Performed (.hostRead a) s { s with seen := some (.byte a (s.readByte a.toNat)) }
  | hostWrite {s a v} : s.isHeld a.toNat = false → s.params.accessible a.toNat = true →
      Performed (.hostWrite a v) s (s.writeByte a.toNat v)

theorem offerDescriptor_next {n : Nat} {d : Desc} {s t : State} (h : offerDescriptor n d s = .next t) :
    Performed (.offer n d) s t := by
  obtain ⟨I, hI, h⟩ := State.withInst_next h
  split at h
  · cases h
  · cases h; exact .offer hI ‹_›

theorem withdrawDescriptor_next {n : Nat} {s t : State} (h : withdrawDescriptor n s = .next t) :
    Performed (.withdraw n) s t := by
  obtain ⟨I, hI, h⟩ := State.withInst_next h
  cases h; exact .withdraw hI

/-- The accept transition of a command (R30), taken apart. -/
theorem acceptCommand_next {g : CmdRegs} {s t : State} (h : acceptCommand g s = .next t) :
    ∃ I, s.insts[s.sel]? = some I ∧ ((I.isBusy = true ∧ t = s) ∨
      (I.isBusy = false ∧ contractBreach s s.sel g = none ∧ t = s.setInst s.sel (I.accepted g))) := by
  obtain ⟨I, hI, h⟩ := State.withInst_next h
  refine ⟨I, hI, ?_⟩
  split_ifs at h with hb
  · cases h; exact .inl ⟨hb, rfl⟩
  · split at h
    · cases h
    · cases h; exact .inr ⟨by simpa using hb, ‹_›, rfl⟩

theorem exec_eq (i : Instr) (s : State) : exec i s = acceptCommand (cmdRegsOf i) s := by
  cases i <;> rfl

theorem acceptOffer_next {n : Nat} {s t : State} (h : acceptOffer n s = .next t) : Performed (.accept n) s t := by
  simp only [acceptOffer, fetchCommand] at h
  cases hI : s.insts[n]? with
  | none => simp [hI] at h
  | some I =>
    simp only [hI] at h
    cases hd : I.offered with
    | none => simp only [hd] at h; cases h; exact .acceptNothing hI hd
    | some d =>
      simp only [hd] at h
      cases hi : decode d with
      | error e => simp only [hi] at h; cases h
      | ok i =>
        simp only [hi] at h
        rw [exec_eq] at h
        obtain ⟨J, hJ, hc⟩ := acceptCommand_next h
        have hJI : J = I := by
          have : s.insts[n]? = some J := hJ
          rw [hI] at this; exact (Option.some.inj this).symm
        subst hJI
        rcases hc with ⟨hb, rfl⟩ | ⟨hb, hc, rfl⟩
        · exact .acceptWaits hI hd hi hb
        · exact .accept hI hd hi hb hc

theorem pixelStep_next {n : Nat} {s t : State} (h : pixelStep n s = .next t) : Performed (.pixel n) s t := by
  obtain ⟨I, hI, h⟩ := State.withInst_next h
  split_ifs at h with hb
  · split at h
    · rename_i g hg
      simp only [pixelOf] at h
      split_ifs at h with h1 h2
      cases h; exact .pixel hI hb hg h1.1 h1.2 h2
    · cases h
  · cases h; exact .pixelIdle hI (by simpa using hb)

/-- A BUSY instance with its counters in the block and its bytes accessible takes its pixel step (R115). -/
theorem pixelStep_of {n : Nat} {s : State} {I : Inst} {g : CmdRegs} (hI : s.insts[n]? = some I) (hb : I.isBusy = true)
    (hg : I.cmd = some g) (hr : I.row.toNat < g.extent.h) (hc : I.col.toNat < g.extent.w)
    (ha : pixelAccessible s.params g I.row.toNat I.col.toNat = true) :
    pixelStep n s = .next (pixelNext s n I g) := by
  simp only [pixelStep, State.withInst_of hI, hb, hg, pixelOf, hr, hc, ha, and_self, if_true, pixelNext]

theorem resetInst_next {n : Nat} {s t : State} (h : resetInst n s = .next t) : Performed (.reset n) s t := by
  obtain ⟨I, hI, h⟩ := State.withInst_next h
  split_ifs at h with hb
  cases h; exact .reset hI (by simpa using hb)

theorem readStatus_next {n : Nat} {s t : State} (h : readStatus n s = .next t) : Performed (.readStatus n) s t := by
  obtain ⟨I, hI, h⟩ := State.withInst_next h
  cases h; exact .readStatus hI

theorem hostRead_next {a : Address} {s t : State} (h : hostRead a s = .next t) : Performed (.hostRead a) s t := by
  simp only [hostRead] at h
  split_ifs at h with h1 h2
  cases h; exact .hostRead (by simpa using h1) h2

theorem hostWrite_next {a : Address} {v : Byte} {s t : State} (h : hostWrite a v s = .next t) :
    Performed (.hostWrite a v) s t := by
  simp only [hostWrite] at h
  split_ifs at h with h1 h2
  cases h; exact .hostWrite (by simpa using h1) h2

/-- Everything a transition can do. -/
theorem perform_next {e : Event} {s t : State} (h : perform e s = .next t) : Performed e s t := by
  cases e with
  | offer n d => exact offerDescriptor_next h
  | withdraw n => exact withdrawDescriptor_next h
  | accept n => exact acceptOffer_next h
  | pixel n => exact pixelStep_next h
  | reset n => exact resetInst_next h
  | readStatus n => exact readStatus_next h
  | hostRead a => exact hostRead_next h
  | hostWrite a v => exact hostWrite_next h

/-- Everything a step can do: nothing is enabled, or the upcoming transition is performed. -/
theorem step_next {s t : State} (h : step s = .next t) :
    (s.upcoming.1 = none ∧ t = s.upcoming.2) ∨ ∃ e, s.upcoming.1 = some e ∧ Performed e s.upcoming.2 t := by
  simp only [step] at h
  split at h
  · rename_i e u hu
    exact .inr ⟨e, by rw [hu], by rw [hu]; exact perform_next h⟩
  · rename_i u hu
    cases h
    exact .inl ⟨by rw [hu], by rw [hu]⟩

theorem step_of_upcoming {s t : State} {e : Event} (h : s.upcoming = (some e, t)) : step s = perform e t := by
  simp [step, h]

end Sys2Proof.Machine
end

