-- ==== Sys2Proof/Laws/Text.lean ====
section
/-! SUPPORT. The lemmas of the textual form (spec/30_encoding.md R74). -/

namespace Sys2Proof.Machine
open Sys2Proof

/-- A digit is read as the value it was written for. -/
theorem Text.digitValue_digit : ∀ n < 16, Text.digitValue (Text.digit n) = some n := by decide

/-- A digit is none of the separators. -/
theorem Text.digit_ne : ∀ n < 16, ∀ c ∈ [' ', ',', ')', '#'], Text.digit n ≠ c := by
  intro n hn c hc h
  have hv := Text.digitValue_digit n hn
  rw [h] at hv
  simp only [List.mem_cons, List.not_mem_nil, or_false] at hc
  rcases hc with rfl | rfl | rfl | rfl <;> simp [Text.digitValue] at hv

/-- A written numeral holds no separator. -/
theorem Text.mem_ofWord {w : Word} {c : Char} (h : c ∈ Text.ofWord w) : ∀ x ∈ [' ', ',', ')', '#'], c ≠ x := by
  simp only [Text.ofWord, List.mem_cons, List.mem_map] at h
  rcases h with rfl | rfl | ⟨i, -, rfl⟩
  · simp
  · simp
  · exact Text.digit_ne _ (Nat.mod_lt _ (by decide))

/-- A written numeral is read as its value. -/
theorem Text.numeral_ofWord (w : Word) : Text.numeral (Text.ofWord w) = some w := by
  have hd : ∀ i, Text.digitValue (Text.digit (w.toNat / 16 ^ i % 16)) = some (w.toNat / 16 ^ i % 16) :=
    fun i => Text.digitValue_digit _ (Nat.mod_lt _ (by decide))
  have hl : ∀ i, w.toNat / 16 ^ i % 16 < 16 := fun i => Nat.mod_lt _ (by decide)
  have hw := w.isLt
  simp only [Text.ofWord, Text.numeral, List.map, Text.digitsValue, hd, hl, if_true, Text.operand]
  have : (16 * (16 * (16 * (16 * (16 * (16 * (16 * (16 * 0 + w.toNat / 16 ^ 7 % 16) + w.toNat / 16 ^ 6 % 16) + w.toNat / 16 ^ 5 % 16) +
    w.toNat / 16 ^ 4 % 16) + w.toNat / 16 ^ 3 % 16) + w.toNat / 16 ^ 2 % 16) + w.toNat / 16 ^ 1 % 16) + w.toNat / 16 ^ 0 % 16) = w.toNat := by omega
  rw [this, if_pos hw]; simp

/-- A key is stripped off what follows it. -/
theorem Text.strip_append (k r : List Char) : Text.strip k (k ++ r) = some r := by
  induction k with
  | nil => cases r <;> rfl
  | cons k ks ih => simp [Text.strip, ih]

/-- The part before the first character that ends it, and the rest. -/
theorem takeWhile_until {p : Char → Bool} {w r : List Char} {c : Char} (h : ∀ x ∈ w, p x = true) (hc : p c = false) :
   (w ++ c :: r).takeWhile p = w ∧ (w ++ c :: r).dropWhile p = c :: r := by
  induction w with
  | nil => simp [hc]
  | cons x xs ih => 
    have := ih fun y hy => h y (List.mem_cons_of_mem _ hy)
    simp [h x, this.1, this.2]

/-- A written buffer operand is read as its base and stride. -/
theorem Text.buffer_ofBuffer (k : List Char) (b : Address) (s : Stride) : Text.buffer k (Text.ofBuffer k b s) = some (b, s) := by
  have h1 := @takeWhile_until (fun c => decide (c ≠ ',')) (Text.ofWord b) (Text.ofWord s ++ [')']) ',' (fun x hx => by simpa using Text.mem_ofWord hx ',' (by decide)) (by decide)
  have h2 := @takeWhile_until (fun c => decide (c ≠ ')')) (Text.ofWord s) [] ')' (fun x hx => by simpa using Text.mem_ofWord hx ')' (by decide)) (by decide)
  simp only [Text.buffer, Text.ofBuffer, Text.strip_append, h1.1, h1.2, List.drop_succ_cons, List.drop_zero, h2.1, h2.2, Text.numeral_ofWord, if_true]

/-- Characters that are no blank join the word being read. -/
theorem Text.wordsFrom_append {w : List Char} (h : ∀ x ∈ w, x ≠ ' ') : ∀ cur r, Text.wordsFrom cur (w ++ r) = Text.wordsFrom (w.reverse ++ cur) r := by
  induction w with
  | nil => intro cur r; rfl
  | cons x xs ih =>
    intro cur r
    simp [Text.wordsFrom, h x, ih fun y hy => h y (List.mem_cons_of_mem _ hy)]

/-- A word before a blank is the first word. -/
theorem Text.wordsFrom_word {w : List Char} (h : ∀ x ∈ w, x ≠ ' ') (hn : w ≠ []) (r) : Text.wordsFrom [] (w ++ ' ' :: r) = w :: Text.wordsFrom [] r := by
  rw [Text.wordsFrom_append h, List.append_nil]; simp [Text.wordsFrom, hn]

/-- A line without blanks is one word. -/
theorem Text.wordsFrom_last {w : List Char} (h : ∀ x ∈ w, x ≠ ' ') (hn : w ≠ []) : Text.wordsFrom [] w = [w] := by
  have := Text.wordsFrom_append h [] []; rw [List.append_nil] at this; rw [this]; simp [Text.wordsFrom, hn]

/-- A written buffer operand holds no character its key does not hold, of blank and number sign. -/
theorem Text.mem_ofBuffer {k : List Char} {b : Address} {s : Stride} {c x : Char} (hk : c ∉ k) (hc : c ∈ [' ', '#']) (h : x ∈ Text.ofBuffer k b s) : x ≠ c := by
  simp only [Text.ofBuffer, List.mem_append, List.mem_cons, List.not_mem_nil, or_false] at h
  have hc' : c ∈ [' ', ',', ')', '#'] := by revert hc; simp; tauto
  rcases h with h | h | rfl | h | rfl
  · rintro rfl; exact hk h
  · exact Text.mem_ofWord h c hc'
  · rintro rfl; revert hc; decide
  · exact Text.mem_ofWord h c hc'
  · rintro rfl; revert hc; decide

/-- The words of a written line. -/
theorem Text.words_ofOperands {name : List Char} (hs : ∀ x ∈ name, x ≠ ' ' ∧ x ≠ '#') (hn : name ≠ [])
    (mode : Bit) (pb : Address) (ps : Stride) (ob : Address) (os : Stride) (sb : Address) (ss : Stride) (mm : Motion) :
    Text.wordsFrom [] ((Text.ofOperands name mode pb ps ob os sb ss mm).takeWhile (· ≠ '#')) =
      [name, Text.ofBuffer Text.pred pb ps, Text.ofBuffer Text.out ob os, Text.ofBuffer Text.src sb ss,
        Text.mm ++ Text.ofWord mm, Text.mode ++ [if mode = 1#1 then '1' else '0']] := by
  have bs : ∀ {k : List Char} (b : Address) (s : Stride), ' ' ∉ k → ∀ x ∈ Text.ofBuffer k b s, x ≠ ' ' := fun b s h x hx => Text.mem_ofBuffer h (by decide) hx
  have bh : ∀ {k : List Char} (b : Address) (s : Stride), '#' ∉ k → ∀ x ∈ Text.ofBuffer k b s, x ≠ '#' := fun b s h x hx => Text.mem_ofBuffer h (by decide) hx
  have ms : ∀ x ∈ Text.mm ++ Text.ofWord mm, x ≠ ' ' ∧ x ≠ '#' := by
    intro x hx
    rcases List.mem_append.1 hx with h | h
    · constructor <;> (rintro rfl; revert h; decide)
    · exact ⟨Text.mem_ofWord h ' ' (by decide), Text.mem_ofWord h '#' (by decide)⟩
  have ds : ∀ x ∈ Text.mode ++ [if mode = 1#1 then '1' else '0'], x ≠ ' ' ∧ x ≠ '#' := by
    split <;> simp [Text.mode]
  have htw : (Text.ofOperands name mode pb ps ob os sb ss mm).takeWhile (· ≠ '#') = Text.ofOperands name mode pb ps ob os sb ss mm := by
    rw [List.takeWhile_eq_self_iff]
    intro x hx
    have : x ≠ '#' := by
      simp only [Text.ofOperands, List.mem_append (s := name), List.mem_cons, List.mem_append (s := Text.ofBuffer _ _ _), List.mem_append (s := Text.mm ++ Text.ofWord mm)] at hx
      rcases hx with h | rfl | h | rfl | h | rfl | h | rfl | h | rfl | h
      · exact (hs x h).2
      · decide
      · exact bh _ _ (by decide) x h
      · decide
      · exact bh _ _ (by decide) x h
      · decide
      · exact bh _ _ (by decide) x h
      · decide
      · exact (ms x h).2
      · decide
      · exact (ds x h).2
    simpa using this
  rw [htw, Text.ofOperands, Text.wordsFrom_word (fun x h => (hs x h).1) hn, Text.wordsFrom_word (bs _ _ (by decide)) (by simp [Text.ofBuffer, Text.pred]),
    Text.wordsFrom_word (bs _ _ (by decide)) (by simp [Text.ofBuffer, Text.out]), Text.wordsFrom_word (bs _ _ (by decide)) (by simp [Text.ofBuffer, Text.src]),
    Text.wordsFrom_word (fun x h => (ms x h).1) (by simp [Text.mm]), Text.wordsFrom_last (fun x h => (ds x h).1) (by simp [Text.mode])]

end Sys2Proof.Machine
end

