-- ==== Sys2Proof/Tests/Slice0.lean ====
section
/-! SUPPORT. Tests with expected values from spec/95_test_vectors.md and spec/30_encoding.md, and for every statement with
hypotheses a witness that meets them. The configurations are the spec's illustrations, not the hardware's constants. -/

namespace Sys2Proof.Tests

open Sys2Proof Sys2Proof.Machine

/-! ## Small states -/

/-- `TESTCFG_A` (95_test_vectors.md section 1). -/
def cfgA : KCfg := ⟨24, [⟨3, 255, 255⟩, ⟨7, 4, 5⟩, ⟨15, 5, 6⟩]⟩

/-- `TESTCFG_B` (95_test_vectors.md section 1). -/
def cfgB : KCfg := ⟨5, [⟨2, 2, 2⟩, ⟨10, 1, 2⟩]⟩

def testParams : Params := ⟨cfgA, [⟨0, 2 ^ 32⟩]⟩

/-- The command of program P1. -/
def p1 : Instr := .fltChroma 0 0x1000 8 0x2000 12 0x3000 10 10

/-- The command of program P4. -/
def p4 : Instr := .fltLuma 1 0x4000 16 0x5000 16 0x6000 16 24

/-- Two idle instances. -/
def idle (m : Memory) (agenda : List Event) : State := ⟨m, [Inst.reset, Inst.reset], testParams, agenda, 0, none⟩

/-- An instance BUSY with the command `i` at position `(r, c)`. -/
def busyAt (i : Instr) (r c : BitVec 5) : Inst := ⟨some (cmdRegsOf i), r, c, 0b01#2, none, [cmdRegsOf i]⟩

/-- Instance 0 BUSY with P1, instance 1 BUSY with P4 (program P6). -/
def bothBusy (m : Memory) (agenda : List Event) (r c : BitVec 5) : State :=
  ⟨m, [busyAt p1 r c, busyAt p4 0 0], testParams, agenda, 0, none⟩

/-- The two samples of the example of R115. -/
def exampleMem : Memory := [(0x1015, 106), (0x3019, 100)]

def nextIs (r : Result) (f : State → Bool) : Bool :=
  match r with
  | .next t => f t
  | _ => false

def reasonIs (r : Result) (x : Refusal) : Bool :=
  match r with
  | .refused y => decide (x = y)
  | _ => false

theorem next_of {r : Result} {f : State → Bool} (h : nextIs r f = true) : ∃ t, r = .next t ∧ f t = true := by
  cases r with
  | next t => exact ⟨t, rfl, h⟩
  | fault _ => cases h
  | refused _ => cases h

/-! ## Encoding: words written out from R66, R68, R76 and 95_test_vectors.md section 4 -/

theorem test_decode_chroma_p1 :
    decode 0x0000000A0000000A000030000000000C00002000000000080000100000000002#256 =
      .ok (.fltChroma 0 0x1000 8 0x2000 12 0x3000 10 10) := by decide

theorem test_decode_luma_p2 :
    decode 0x0000001900000010000060000000001000005000000000100000400000000101#256 =
      .ok (.fltLuma 1 0x4000 16 0x5000 16 0x6000 16 25) := by decide

theorem test_encode_luma_p2 :
    encode (.fltLuma 1 0x4000 16 0x5000 16 0x6000 16 25) =
      0x0000001900000010000060000000001000005000000000100000400000000101#256 := by decide

theorem test_decode_refuses_reserved :
    decode 0x00000000#256 = .error .reservedOpcode ∧ decode 0x00000003#256 = .error .reservedOpcode ∧
      decode 0x000000FF#256 = .error .reservedOpcode ∧ decode 0x00000201#256 = .error .reservedBits ∧
      decode 0x80000002#256 = .error .reservedBits := by decide

theorem test_wellFormed_refuses_opcode : Desc.opcodeDefined 0x00000003#256 = false ∧ Desc.wellFormed 0x00000003#256 = false :=
  by decide

theorem test_wellFormed_refuses_reserved_bits :
    Desc.reservedZero 0x00000201#256 = false ∧ Desc.wellFormed 0x00000201#256 = false ∧
      Desc.wellFormed 0x80000002#256 = false := by decide

theorem test_wellFormed_accepts : Desc.wellFormed 0x00000101#256 = true ∧ Desc.wellFormed 0x00000002#256 = true := by decide

theorem test_table_words :
    decodeTableWord 256 1 = some (.fltLuma 0 0 0 0 0 0 0 0) ∧ decodeTableWord 256 2 = some (.fltChroma 0 0 0 0 0 0 0 0) := by
  decide

theorem test_pseudo_forms :
    filterChroma ⟨0x1000, 8⟩ ⟨0x2000, 12⟩ ⟨0x3000, 10⟩ 10 false = p1 ∧
      filterLuma ⟨0x4000, 16⟩ ⟨0x5000, 16⟩ ⟨0x6000, 16⟩ 24 true = p4 := by decide

/-- Lines of 95_test_vectors.md, in R74's syntax, the second with a comment; and a name and a numeral that R74 does not admit. -/
theorem test_text :
    commandOfText "FLT.CHROMA pred=(0x1000,8) out=(0x2000,12) src=(0x3000,10) mm=10 mode=0".toList = some p1 ∧
      commandOfText "FLT.LUMA pred=(0x4000,16) out=(0x6000,16) src=(0x6000,16) mm=0 mode=0  # CV4".toList =
        some (.fltLuma 0 0x4000 16 0x6000 16 0x6000 16 0) ∧
      commandOfText "FLT.RGB pred=(0,16) out=(0,16) src=(0,16) mm=0 mode=0".toList = none ∧
      commandOfText "FLT.LUMA pred=(4294967296,16) out=(0,16) src=(0,16) mm=0 mode=0".toList = none := by decide +kernel

/-! ## The kernel: 95_test_vectors.md section 3 -/

theorem test_kernel_cfgA_mode0 :
    pixelRule cfgA 104 100 0 0 = ⟨104, 104, true⟩ ∧ pixelRule cfgA 107 100 0 0 = ⟨104, 104, true⟩ ∧
      pixelRule cfgA 108 100 0 0 = ⟨105, 105, true⟩ ∧ pixelRule cfgA 116 100 0 0 = ⟨100, 100, true⟩ ∧
      pixelRule cfgA 92 100 0 0 = ⟨95, 95, true⟩ ∧ pixelRule cfgA 255 250 0 0 = ⟨254, 254, true⟩ ∧
      pixelRule cfgA 0 255 0 0 = ⟨255, 255, true⟩ := by decide

theorem test_kernel_cfgA_mode1 :
    pixelRule cfgA 105 100 0 1 = ⟨105, 105, true⟩ ∧ pixelRule cfgA 94 100 0 1 = ⟨95, 95, true⟩ ∧
      pixelRule cfgA 0 9 0 1 = ⟨3, 3, true⟩ ∧ pixelRule cfgA 106 100 24 1 = ⟨105, 105, true⟩ ∧
      pixelRule cfgA 106 100 25 1 = ⟨100, 100, false⟩ ∧ pixelRule cfgA 106 100 4294967295 1 = ⟨100, 100, false⟩ := by
  decide

theorem test_kernel_cfgB :
    pixelRule cfgB 53 50 0 0 = ⟨51, 51, true⟩ ∧ pixelRule cfgB 53 50 0 1 = ⟨52, 52, true⟩ ∧
      pixelRule cfgB 61 50 0 1 = ⟨50, 50, true⟩ ∧ pixelRule cfgB 60 50 6 0 = ⟨50, 50, false⟩ := by decide

/-! ## Addresses: 95_test_vectors.md section 5 -/

theorem test_addresses :
    Footprint.addr ⟨0x3000, 10, Config.chroma⟩ 2 5 = 0x3019 ∧ Footprint.addr ⟨0x2000, 12, Config.chroma⟩ 7 7 = 0x205B ∧
      Footprint.addr ⟨0x8010, 32, Config.luma⟩ 15 15 = 0x81FF ∧
      Footprint.addr ⟨0xFFFFFF00, 16, Config.luma⟩ 15 15 = 0xFFFFFFFF := by decide

/-! ## The commands: each refusal of 95_test_vectors.md section 5 beside its nearest accepted neighbour -/

theorem test_luma_accepted_at_the_top :
    nextIs (exec (.fltLuma 0 0x4000 16 0x5000 16 0xFFFFFF00 16 0) (idle [] []))
      (fun t => decide ((t.insts[0]?.map Inst.status) = some 0b01#2)) = true := by decide +kernel

theorem test_luma_refused :
    reasonIs (exec (.fltLuma 0 0x4000 16 0x5000 16 0x6000 15 0) (idle [] [])) .cv2 = true ∧
      reasonIs (exec (.fltLuma 0 0x4000 16 0x5000 16 0xFFFFFF01 16 0) (idle [] [])) .cv3 = true ∧
      reasonIs (exec (.fltLuma 0 0x4000 16 0x6000 16 0x6000 16 0) (idle [] [])) .cv4 = true := by decide +kernel

theorem test_chroma_accepted_when_rows_interleave :
    nextIs (exec (.fltChroma 0 0x1000 16 0x2000 8 0x1008 16 0) (idle [] []))
      (fun t => decide ((t.insts[0]?.map Inst.status) = some 0b01#2)) = true := by decide +kernel

theorem test_chroma_refused :
    reasonIs (exec (.fltChroma 0 0x1000 16 0x2000 8 0x1007 16 0) (idle [] [])) .cv4 = true ∧
      reasonIs (exec p1 { idle [] [] with params := ⟨cfgA, [⟨0x1000, 0x2000⟩]⟩ }) .cv5 = true ∧
      reasonIs (exec p1 { bothBusy [] [] 0 0 with sel := 1, insts := [busyAt p1 0 0, Inst.reset] }) .cv7 = true := by
  decide +kernel

/-! ## Single steps -/

/-- The example of R115. -/
theorem test_pixel_step_example :
    nextIs (pixelStep 0 (bothBusy exampleMem [] 2 5)) (fun t =>
      decide (t.mem.read 0x201D = 104 ∧ t.mem.read 0x3019 = 104 ∧ t.insts[0]?.map Inst.row = some 2#5 ∧
        t.insts[0]?.map Inst.col = some 6#5)) = true := by decide

/-- The status table of 95_test_vectors.md section 5: the last pixel step of a chroma command. -/
theorem test_last_pixel_step :
    nextIs (pixelStep 0 (bothBusy [] [] 7 7)) (fun t =>
      decide (t.insts[0]?.map Inst.status = some 0b10#2 ∧ t.insts[0]?.map Inst.row = some 0#5)) = true := by decide

/-- The negative program of 95_test_vectors.md: a host write to a byte handed over. -/
theorem test_host_write_while_handed_over :
    reasonIs (hostWrite 0x3000 1 (bothBusy [] [] 0 0)) .cv6 = true := by decide

/-- A reset gives no footprint back (R164, R170): DONE unread, reset, and the host's read is CV6. -/
theorem test_reset_keeps_what_is_handed_over :
    nextIs (resetInst 0 { bothBusy [] [] 0 0 with insts := [{ busyAt p1 0 0 with status := 0b10#2 }] }) (fun t =>
      decide (t.insts[0]?.map Inst.status = some 0b00#2) && reasonIs (hostRead 0x3000 t) .cv6) = true := by decide +kernel

/-- A placed descriptor is fetched and accepted by the very next step. -/
theorem test_placed_descriptor_runs :
    nextIs (step ((idle [] []).withFetchWord 256 (encode p1).toNat))
      (fun t => decide (t.insts[0]?.map Inst.cmd = some (some (cmdRegsOf p1)))) = true := by decide +kernel

/-- From reset a placed descriptor of zero operands is fetched, and refused for its strides (R142 CV2; log entry 14). -/
theorem test_zero_operands_from_reset :
    fetchCommand 0 (State.reset.withFetchWord 256 2) = .command (.fltChroma 0 0 0 0 0 0 0 0) ∧
      step (State.reset.withFetchWord 256 1) = .refused .cv2 ∧ step (State.reset.withFetchWord 256 2) = .refused .cv2 :=
  ⟨rfl, rfl, rfl⟩

/-! ## Witnesses: each statement's hypotheses are met together -/

theorem inDomain_of {c : CmdRegs} {p : Params}
    (h : (!c.strideShort && !c.passesTop && !c.selfOverlap && !c.notAllocated p) = true) : c.InDomain p := by
  simp only [Bool.and_eq_true, Bool.not_eq_true', and_assoc] at h
  exact CmdRegs.inDomain_iff.2 h

theorem witness_p1_inDomain : (cmdRegsOf p1).InDomain testParams := inDomain_of (by decide +kernel)

theorem witness_p4_inDomain : (cmdRegsOf p4).InDomain testParams := inDomain_of (by decide +kernel)

theorem witness_clear (m : Memory) (agenda : List Event) (c : CmdRegs) : (idle m agenda).ClearFor 0 c := by
  intro m J hm hJ d hd
  have hr : J = Inst.reset := by
    match m, hJ with
    | 0, _ => exact absurd rfl hm
    | 1, h => exact (Option.some.inj h).symm
  subst hr
  exact absurd hd (by simp [Inst.held, Inst.waiting, Inst.running, Inst.reset, Inst.isBusy])

theorem witness_empty_wf : Memory.wf [] := by decide

theorem witness_cfgA_valid : cfgA.Valid := by decide

theorem witness_busyAt_inv (i : Instr) (r c : BitVec 5) (hd : (cmdRegsOf i).InDomain testParams)
    (hr : r.toNat < (cmdRegsOf i).extent.h) (hc : c.toNat < (cmdRegsOf i).extent.w) : Inst.Inv testParams (busyAt i r c) := by
  have hopc : (cmdRegsOf i).opc = 0x01#8 ∨ (cmdRegsOf i).opc = 0x02#8 := by cases i <;> simp [cmdRegsOf]
  refine ⟨.inr (.inl rfl), ?_, ?_, ?_, fun _ => ⟨_, rfl, by simp [busyAt], hr, hc⟩, fun g hg => ?_⟩
  · intro h; cases h
  · intro h; cases h
  · intro h; cases h
  · simp only [busyAt, List.mem_singleton] at hg
    subst hg
    exact CmdRegs.admissible_iff.2 ⟨hopc, hd⟩

/-- A state of the invariant with two BUSY instances. -/
theorem witness_inv_bothBusy (agenda : List Event) (r c : BitVec 5) (hr : r.toNat < 8) (hc : c.toNat < 8) :
    (bothBusy [] agenda r c).Inv := by
  have hconf : (cmdRegsOf p1).conflicts (cmdRegsOf p4) = false := by decide +kernel
  have hconf' : (cmdRegsOf p4).conflicts (cmdRegsOf p1) = false := by decide +kernel
  refine ⟨witness_empty_wf, by simp [bothBusy], witness_cfgA_valid, ?_, ?_⟩
  · intro I hI
    simp only [bothBusy, List.mem_cons, List.not_mem_nil, or_false] at hI
    rcases hI with rfl | rfl
    · exact witness_busyAt_inv p1 r c witness_p1_inDomain hr hc
    · exact witness_busyAt_inv p4 0 0 witness_p4_inDomain (by decide) (by decide)
  · intro n m I J hI hJ hnm x hx y hy
    match n, m, hI, hJ with
    | 0, 0, _, _ => exact absurd rfl hnm
    | 1, 1, _, _ => exact absurd rfl hnm
    | 0, 1, h, k =>
      obtain rfl := Option.some.inj h
      obtain rfl := Option.some.inj k
      simp only [busyAt, List.mem_singleton] at hx hy
      subst hx hy
      exact hconf
    | 1, 0, h, k =>
      obtain rfl := Option.some.inj h
      obtain rfl := Option.some.inj k
      simp only [busyAt, List.mem_singleton] at hx hy
      subst hx hy
      exact hconf'

/-- A state of the invariant with an empty agenda and nothing waiting. -/
theorem witness_inv_idle (agenda : List Event) : (idle [] agenda).Inv := by
  refine ⟨witness_empty_wf, by simp [idle], witness_cfgA_valid, ?_, ?_⟩
  · intro I hI
    simp only [idle, List.mem_cons, List.not_mem_nil, or_false, or_self] at hI
    subst hI
    exact ⟨.inl rfl, fun _ => ⟨rfl, rfl⟩, fun _ => rfl, (fun h => absurd h (by decide)), (fun h => absurd h (by decide)),
      fun g hg => by cases hg⟩
  · intro n m I J hI _ _ c hc
    have : I = Inst.reset := by
      match n, hI with
      | 0, h => exact (Option.some.inj h).symm
      | 1, h => exact (Option.some.inj h).symm
    subst this
    cases hc

/-- Instance 0 idle with the descriptor `d` waiting. -/
def waitingWith (d : Desc) (agenda : List Event) : State :=
  { idle [] agenda with insts := [{ Inst.reset with offered := some d }, Inst.reset] }

theorem witness_WorkedDescriptors : Desc.w0 0x00000003#256 = 0x00000003#32 ∧ Desc.w0 0x00000201#256 = 0x00000201#32 := by
  decide

theorem witness_DecodeAndEncode :
    (Desc.wellFormed 0x00000101#256 = true ∧ (0x00000101#256 : Desc).extractLsb' 0 8 = 0x01#8) ∧
      (Desc.wellFormed 0x00000102#256 = true ∧ (0x00000102#256 : Desc).extractLsb' 0 8 = 0x02#8) ∧
      Desc.wellFormed 0x000000FF#256 = false ∧ decode 0x00000002#256 = .ok (.fltChroma 0 0 0 0 0 0 0 0) := by decide

theorem witness_OpcodeTable :
    (0x00000000#256 : Desc).extractLsb' 0 8 ≠ 0x01#8 ∧ (0x00000000#256 : Desc).extractLsb' 0 8 ≠ 0x02#8 := by decide

theorem witness_IllFormed :
    ∃ I : Inst, (waitingWith 0x00000003#256 []).insts[0]? = some I ∧ Desc.wellFormed 0x00000003#256 = false ∧
      I.offered = some 0x00000003#256 := ⟨{ Inst.reset with offered := some 0x00000003#256 }, rfl, by decide, rfl⟩

theorem witness_MotionGate : cfgA.motionThreshold < (25#32).toNat ∧ (24#32).toNat ≤ cfgA.motionThreshold := by decide

theorem witness_Bands : cfgA.Valid ∧ 0 < cfgA.bands.length ∧ 1 + 1 < cfgA.bands.length ∧
    cfgA.bands.length - 1 < cfgA.bands.length ∧ bandOf cfgA 15 = 2 ∧ bandOf cfgA 16 = cfgA.numBands := by decide

theorem witness_Magnitude : bandOf cfgA 15 < cfgA.bands.length ∧ bandOf cfgA 16 = cfgA.numBands := by decide

theorem witness_CorrectionSign : (0 : Int) ≤ ((100#8).toNat : Int) - (100#8).toNat ∧ ((99#8).toNat : Int) - (100#8).toNat < 0 := by
  decide

theorem witness_Direction : (24#32).toNat ≤ cfgA.motionThreshold ∧ (100#8).toNat ≤ (100#8).toNat ∧
    (99#8).toNat < (100#8).toNat := by decide

theorem witness_ClampSaturates : (-1 : Int) < 0 ∧ (255 : Int) < 256 ∧ (0 : Int) ≤ 255 ∧ (255 : Int) ≤ 255 := by decide

theorem witness_Opposite : ((94#8).toNat : Int) - (100#8).toNat = -(((106#8).toNat : Int) - (100#8).toNat) := by decide

/-- `TESTCFG_B`, with one full-difference band; band 1 of `TESTCFG_A` takes differences its cap applies in full. -/
theorem witness_ReferenceShape :
    ReferenceShape cfgB (fun b => if (0#1 : Bit) = 1#1 then b.aggressive else b.conservative) 1 ∧
      (bandOf cfgB 2 < 1 ∧ bandOf cfgB 2 < cfgB.numBands) ∧ 1 ≤ bandOf cfgB 10 ∧ bandOf cfgB 10 < cfgB.numBands := by
  refine ⟨⟨by decide, ?_, ?_⟩, by decide, by decide, by decide⟩
  · intro i _ hi
    obtain rfl : i = 0 := by omega
    show (2 : Nat) ≤ 2
    omega
  · intro i h _
    have hl : cfgB.bands.length = 2 := rfl
    obtain rfl : i = 0 := by omega
    show (1 : Nat) ≤ 2
    omega

theorem witness_Addresses : (cmdRegsOf p4).InDomain testParams ∧ 15 < (cmdRegsOf p4).extent.h ∧ 15 < (cmdRegsOf p4).extent.w :=
  ⟨witness_p4_inDomain, by decide, by decide⟩

theorem witness_Footprint : (Footprint.mk 0x1000 8 Config.chroma).extent.w ≤ (Footprint.mk 0x1000 8 Config.chroma).stride := by
  decide

theorem witness_Memory : Memory.wf [(0x1015, 106), (0x3019, 100)] ∧ (5 : Nat) ≠ 4 := by decide

theorem witness_FltLumaIsAccepted : (idle [] []).insts[(idle [] []).sel]? = some Inst.reset ∧ Inst.reset.status ≠ 0b01#2 ∧
    (cmdRegsOf p4).InDomain (idle [] []).params ∧ (idle [] []).ClearFor (idle [] []).sel (cmdRegsOf p4) :=
  ⟨rfl, by decide, witness_p4_inDomain, witness_clear _ _ _⟩

theorem witness_FltChromaIsAccepted : (idle [] []).insts[(idle [] []).sel]? = some Inst.reset ∧ Inst.reset.status ≠ 0b01#2 ∧
    (cmdRegsOf p1).InDomain (idle [] []).params ∧ (idle [] []).ClearFor (idle [] []).sel (cmdRegsOf p1) :=
  ⟨rfl, by decide, witness_p1_inDomain, witness_clear _ _ _⟩

theorem witness_BusyInstance :
    let I := { busyAt p1 0 0 with offered := some 0x00000002#256 }
    I.status = 0b01#2 ∧ decode 0x00000002#256 = .ok (.fltChroma 0 0 0 0 0 0 0 0) ∧
      ({ idle [] [] with insts := [I] } : State).insts[0]? = some I ∧ I.offered = some 0x00000002#256 :=
  ⟨rfl, by decide, rfl, rfl⟩

/-- CV2 with a stride one short; the clauses after it are met by the commands of test_luma_refused and test_chroma_refused. -/
theorem witness_OutsideContract : (cmdRegsOf (.fltLuma 0 0x4000 16 0x5000 16 0x6000 15 0)).ss.toNat < 16 ∧
    2 ^ 32 ≤ (0xFFFFFF01#32).toNat + 15 * 16 + 15 ∧ (0x6000 : Nat) ∈ (CmdRegs.out (cmdRegsOf (.fltLuma 0 0x4000 16 0x6000 16 0x6000 16 0))).addresses ∧
    (Params.mk cfgA [⟨0x1000, 0x2000⟩]).allocated 0x3000 = false ∧ (cmdRegsOf p1).conflicts (cmdRegsOf p1) = true := by
  decide +kernel

theorem witness_Accepting : ∃ t, exec p1 (idle [] []) = .next t := by
  obtain ⟨t, h, -⟩ := next_of (r := exec p1 (idle [] [])) (f := fun _ => true) (by decide +kernel)
  exact ⟨t, h⟩

theorem witness_StepRuns :
    (waitingWith (encode p1) [.accept 0]).agenda = .accept 0 :: [] ∧
      (waitingWith (encode p1) [.accept 0]).insts[0]? = some { Inst.reset with offered := some (encode p1) } ∧
      decode (encode p1) = .ok p1 ∧ decodeTableWord 256 (encode p1).toNat = some p1 :=
  ⟨rfl, rfl, by decide +kernel, by decide +kernel⟩

theorem witness_StepFollows :
    (idle [] [.pixel 0]).agenda = .pixel 0 :: [] ∧ ((bothBusy [] [] 0 0).agenda = [] ∧ (bothBusy [] [] 0 0).firstBusy = some 0) ∧
      ((waitingWith 0x00000002#256 []).agenda = [] ∧ (waitingWith 0x00000002#256 []).firstBusy = none ∧
        (waitingWith 0x00000002#256 []).firstWaiting = some 0) ∧
      ∀ I ∈ (idle [] []).insts, I.status ≠ 0b01#2 ∧ I.offered = none :=
  ⟨rfl, by decide, ⟨rfl, by decide, by decide⟩, by decide⟩

/-- The three ways the counters advance, each at its boundary position. -/
theorem witness_PixelStep : ∀ rc ∈ [((0 : BitVec 5), (6 : BitVec 5)), (6, 7), (7, 7)],
    (bothBusy [] [] rc.1 rc.2).insts[0]? = some (busyAt p1 rc.1 rc.2) ∧ (busyAt p1 rc.1 rc.2).status = 0b01#2 ∧
      (busyAt p1 rc.1 rc.2).cmd = some (cmdRegsOf p1) ∧ rc.1.toNat < (cmdRegsOf p1).extent.h ∧
      rc.2.toNat < (cmdRegsOf p1).extent.w := by decide +kernel

theorem witness_PixelTouches : (∃ t, perform (.pixel 0) (bothBusy exampleMem [] 2 5) = .next t) ∧
    (bothBusy exampleMem [] 2 5).insts[0]? = some (busyAt p1 2 5) := by
  obtain ⟨t, h, -⟩ := next_of (r := perform (.pixel 0) (bothBusy exampleMem [] 2 5)) (f := fun _ => true) (by decide)
  exact ⟨⟨t, h⟩, rfl⟩

theorem witness_NotEnabled : (idle [] []).insts[0]? = some Inst.reset ∧ Inst.reset.status ≠ 0b01#2 ∧ Inst.reset.offered = none :=
  ⟨rfl, by decide, rfl⟩

theorem witness_FltLumaFilters : (idle [] []).mem.wf ∧ (idle [] []).agenda = [] ∧
    (idle [] []).insts[(idle [] []).sel]? = some Inst.reset ∧ (∀ J ∈ (idle [] []).insts, J.status ≠ 0b01#2) ∧
    (cmdRegsOf p4).InDomain (idle [] []).params ∧ (idle [] []).ClearFor (idle [] []).sel (cmdRegsOf p4) :=
  ⟨by decide, rfl, rfl, by decide, witness_p4_inDomain, witness_clear _ _ _⟩

theorem witness_FltChromaFilters : (idle [] []).mem.wf ∧ (idle [] []).agenda = [] ∧
    (idle [] []).insts[(idle [] []).sel]? = some Inst.reset ∧ (∀ J ∈ (idle [] []).insts, J.status ≠ 0b01#2) ∧
    (cmdRegsOf p1).InDomain (idle [] []).params ∧ (idle [] []).ClearFor (idle [] []).sel (cmdRegsOf p1) :=
  ⟨by decide, rfl, rfl, by decide, witness_p1_inDomain, witness_clear _ _ _⟩

/-- For the synchronous call and for the block properties. -/
theorem witness_SynchronousCall (i : Instr) : (idle [] (synchronousCall 0 i)).mem.wf ∧
    (idle [] (synchronousCall 0 i)).agenda = synchronousCall 0 i ∧
    (idle [] (synchronousCall 0 i)).insts[0]? = some Inst.reset ∧ Inst.reset.status ≠ 0b01#2 ∧
    (cmdRegsOf p1).InDomain (idle [] (synchronousCall 0 i)).params ∧
    (idle [] (synchronousCall 0 i)).ClearFor 0 (cmdRegsOf i) :=
  ⟨witness_empty_wf, rfl, rfl, by decide, witness_p1_inDomain, witness_clear _ _ _⟩

theorem witness_EveryInterleaving :
    let agenda := List.replicate 64 (Event.pixel 0) ++ [.pixel 1]
    (bothBusy [] agenda 0 0).Inv ∧ (bothBusy [] agenda 0 0).insts[0]? = some (busyAt p1 0 0) ∧
      (∀ e ∈ agenda, ∃ m, m < (bothBusy [] agenda 0 0).insts.length ∧ e = .pixel m) ∧
      (cmdRegsOf p1).extent.w * (cmdRegsOf p1).extent.h ≤ agenda.count (.pixel 0) := by
  refine ⟨witness_inv_bothBusy _ 0 0 (by decide) (by decide), rfl, ?_, by decide⟩
  intro e he
  rcases List.mem_append.1 he with h | h
  · exact ⟨0, by decide, List.eq_of_mem_replicate h⟩
  · exact ⟨1, by decide, List.mem_singleton.1 h⟩

theorem witness_TwoInstances : (bothBusy [] [] 2 5).Inv ∧ (0 : Nat) ≠ 1 ∧
    (bothBusy [] [] 2 5).insts[0]? = some (busyAt p1 2 5) ∧ (bothBusy [] [] 2 5).insts[1]? = some (busyAt p4 0 0) ∧
    (busyAt p1 2 5).status = 0b01#2 ∧ (busyAt p1 2 5).cmd = some (cmdRegsOf p1) ∧
    ∃ t, perform (.pixel 1) (bothBusy [] [] 2 5) = .next t := by
  obtain ⟨t, h, -⟩ := next_of (r := perform (.pixel 1) (bothBusy [] [] 2 5)) (f := fun _ => true) (by decide)
  exact ⟨witness_inv_bothBusy _ 2 5 (by decide) (by decide), by decide, rfl, rfl, rfl, rfl, t, h⟩

/-- `FLT.LUMA` and `FLT.CHROMA` with the operands of P4 are both within contract. -/
theorem witness_ChromaCorner :
    (cmdRegsOf (.fltLuma 1 0x4000 16 0x5000 16 0x6000 16 24)).InDomain (idle [] []).params ∧
      (cmdRegsOf (.fltChroma 1 0x4000 16 0x5000 16 0x6000 16 24)).InDomain (idle [] []).params ∧
      (∀ c, (idle [] []).ClearFor 0 c) ∧ (idle [] []).mem.wf ∧ (idle [] []).insts[0]? = some Inst.reset :=
  ⟨witness_p4_inDomain, inDomain_of (by decide +kernel), witness_clear _ _, by decide, rfl⟩

/-- Two different states that agree on what P1 reads: other memory outside its footprints. -/
theorem witness_Effect :
    let s := idle [] (synchronousCall 0 p1)
    let s' : State := idle [(0x9000, 1)] (synchronousCall 0 p1)
    s.mem.wf ∧ s'.mem.wf ∧ s.params.kernel = s'.params.kernel ∧ s.insts[0]? = some Inst.reset ∧
      s'.insts[0]? = some Inst.reset ∧ (cmdRegsOf p1).InDomain s.params ∧ (cmdRegsOf p1).InDomain s'.params ∧
      s.ClearFor 0 (cmdRegsOf p1) ∧ s'.ClearFor 0 (cmdRegsOf p1) ∧
      ∀ a, a ∈ (cmdRegsOf p1).pred.addresses ∨ a ∈ (cmdRegsOf p1).src.addresses → s.mem.read a = s'.mem.read a := by
  refine ⟨witness_empty_wf, by decide, rfl, rfl, rfl, witness_p1_inDomain, witness_p1_inDomain, witness_clear _ _ _, witness_clear _ _ _, ?_⟩
  intro a ha
  have hp : (0x9000 : Nat) ∉ (cmdRegsOf p1).pred.addresses ∧ (0x9000 : Nat) ∉ (cmdRegsOf p1).src.addresses := by decide +kernel
  have hne : a ≠ 0x9000 := by
    rintro rfl
    exact ha.elim hp.1 hp.2
  simp [Memory.read, hne, idle]

theorem witness_Reset : (bothBusy [] [] 0 0).insts[0]? = some (busyAt p1 0 0) ∧ (busyAt p1 0 0).status = 0b01#2 ∧
    (idle [] []).insts[0]? = some Inst.reset ∧ Inst.reset.status ≠ 0b01#2 := ⟨rfl, rfl, rfl, by decide⟩

/-- The three ways a footprint is handed over: waiting, running, DONE not yet read. -/
theorem witness_HandedOver : (cmdRegsOf p1).Touches (0x3000#32).toNat ∧
    ((waitingWith (encode p1) []).insts[0]?.map Inst.offered = some (some (encode p1)) ∧ decode (encode p1) = .ok p1) ∧
    ((busyAt p1 0 0).status = 0b01#2 ∧ (busyAt p1 0 0).cmd = some (cmdRegsOf p1)) ∧
    cmdRegsOf p1 ∈ ({ busyAt p1 0 0 with status := 0b10#2 } : Inst).handed :=
  ⟨.inr (.inr (by decide +kernel)), ⟨rfl, by decide⟩, ⟨rfl, rfl⟩, by decide⟩

theorem witness_HostOwnBytes : (idle [] []).mem.wf ∧
    (∀ I ∈ (idle [] []).insts, ∀ g ∈ I.held, ¬g.Touches (0xFFFFFFFF#32).toNat) ∧
    (idle [] []).params.allocated (0xFFFFFFFF#32).toNat = true := by
  refine ⟨by decide, ?_, by decide⟩
  intro I hI g hg
  have : I.held = [] := by
    simp only [idle, List.mem_cons, List.not_mem_nil, or_false, or_self] at hI
    subst hI
    decide
  rw [this] at hg
  cases hg

theorem witness_ReadingDone : ({ busyAt p1 0 0 with status := 0b10#2 } : Inst).status = 0b10#2 ∧
    (busyAt p1 0 0).status ≠ 0b10#2 ∧ (bothBusy [] [] 0 0).insts[0]? = some (busyAt p1 0 0) := by decide

theorem witness_Offer : (idle [] []).insts[0]? = some Inst.reset ∧ Desc.wellFormed 0x00000102#256 = true := by decide

theorem witness_EveryStep : (idle [] [.hostWrite 5 7]).Inv ∧ ∃ t, step (idle [] [.hostWrite 5 7]) = .next t := by
  obtain ⟨t, h, -⟩ := next_of (r := step (idle [] [.hostWrite 5 7])) (f := fun _ => true) (by decide)
  exact ⟨witness_inv_idle _, t, h⟩

theorem witness_BusyCanStep : (bothBusy [] [] 7 7).Inv ∧ (bothBusy [] [] 7 7).insts[0]? = some (busyAt p1 7 7) ∧
    (busyAt p1 7 7).status = 0b01#2 := ⟨witness_inv_bothBusy _ 7 7 (by decide) (by decide), rfl, rfl⟩

theorem witness_LeftToItself : (bothBusy [] [] 0 0).Inv ∧ (bothBusy [] [] 0 0).agenda = [] ∧
    ∀ I ∈ (bothBusy [] [] 0 0).insts, I.offered = none :=
  ⟨witness_inv_bothBusy _ 0 0 (by decide) (by decide), rfl, by decide⟩

theorem witness_Registers : ∃ t J, perform (.accept 0) (waitingWith (encode p1) []) = .next t ∧ t.insts[0]? = some J ∧
    J.cmd ≠ none := by
  obtain ⟨t, h, h'⟩ := next_of (r := perform (.accept 0) (waitingWith (encode p1) []))
    (f := fun t => decide (t.insts[0]?.map Inst.cmd = some (some (cmdRegsOf p1)))) (by decide +kernel)
  simp only [decide_eq_true_eq] at h'
  cases hJ : t.insts[0]? with
  | none => rw [hJ] at h'; cases h'
  | some J =>
    rw [hJ] at h'
    exact ⟨t, J, h, hJ, fun e => by rw [Option.map_some, e] at h'; cases h'⟩

theorem witness_MemoryChanges : ∃ t, perform (.hostWrite 5 7) (idle [] []) = .next t ∧ t.mem ≠ [] := by
  obtain ⟨t, h, h'⟩ := next_of (r := perform (.hostWrite 5 7) (idle [] [])) (f := fun t => decide (t.mem ≠ [])) (by decide)
  exact ⟨t, h, by simpa using h'⟩

theorem witness_OneInstanceOnly : (∃ t, perform (.pixel 0) (bothBusy [] [] 0 0) = .next t) ∧
    ∃ t, perform (.hostRead 5) (bothBusy [] [] 0 0) = .next t := by
  obtain ⟨t, h, -⟩ := next_of (r := perform (.pixel 0) (bothBusy [] [] 0 0)) (f := fun _ => true) (by decide)
  obtain ⟨u, k, -⟩ := next_of (r := perform (.hostRead 5) (bothBusy [] [] 0 0)) (f := fun _ => true) (by decide)
  exact ⟨⟨t, h⟩, u, k⟩

theorem witness_NothingSuspends : (∃ t, perform (.pixel 0) (bothBusy [] [] 7 7) = .next t) ∧
    (∃ t, perform (.pixel 1) (bothBusy [] [] 7 7) = .next t) ∧ (bothBusy [] [] 7 7).insts[0]? = some (busyAt p1 7 7) := by
  obtain ⟨t, h, -⟩ := next_of (r := perform (.pixel 0) (bothBusy [] [] 7 7)) (f := fun _ => true) (by decide)
  obtain ⟨u, k, -⟩ := next_of (r := perform (.pixel 1) (bothBusy [] [] 7 7)) (f := fun _ => true) (by decide)
  exact ⟨⟨t, h⟩, ⟨u, k⟩, rfl⟩

theorem witness_FinishedRun : (idle [] []).over := by
  refine ⟨rfl, fun I hI => ?_⟩
  simp only [idle, List.mem_cons, List.not_mem_nil, or_false, or_self] at hI
  subst hI
  exact ⟨rfl, .inl rfl⟩

end Sys2Proof.Tests
end

/-! The kernel constants that a seed builds are exactly the legal ones (R87). -/
section

namespace Sys2Proof

/-- P3 and P5 of R87, with a least value for the thresholds: what `bandsFrom least` keeps. -/
def LegalBandsFrom (least : Nat) (bands : List Band) : Prop :=
  (∀ b ∈ bands, least ≤ b.threshold) ∧ bands.Pairwise (fun a b => a.threshold < b.threshold) ∧
    ∀ b ∈ bands, b.conservative ≤ b.aggressive

theorem legalBandsFrom_nil (least : Nat) : LegalBandsFrom least [] := by simp [LegalBandsFrom]

/-- Above a legal first band the bands are legal from the next threshold on. -/
theorem legalBandsFrom_cons {least : Nat} {b : Band} {bs : List Band} : LegalBandsFrom least (b :: bs) ↔
    least ≤ b.threshold ∧ b.conservative ≤ b.aggressive ∧ LegalBandsFrom (b.threshold + 1) bs := by
  simp only [LegalBandsFrom, List.forall_mem_cons, List.pairwise_cons]
  constructor
  · rintro ⟨⟨hb, -⟩, ⟨hlt, hp⟩, hc, hcs⟩
    exact ⟨hb, hc, hlt, hp, hcs⟩
  · rintro ⟨hb, hc, hlt, hp, hcs⟩
    exact ⟨⟨hb, fun x hx => hb.trans (Nat.le_of_succ_le (hlt x hx))⟩, ⟨hlt, hp⟩, hc, hcs⟩

theorem legalBandsFrom_zero_iff_valid {k : KCfg} : k.bands ≠ [] ∧ LegalBandsFrom 0 k.bands ↔ k.Valid := by
  simp [LegalBandsFrom, KCfg.Valid]

theorem bandsFrom_legal (least : Nat) (seeds : List BandSeed) : LegalBandsFrom least (bandsFrom least seeds) := by
  induction seeds generalizing least with
  | nil => exact legalBandsFrom_nil least
  | cons b bs ih => exact legalBandsFrom_cons.2 ⟨Nat.le_add_right .., Nat.le_add_right .., ih _⟩

/-- The differences of legal bands are a seed of them. -/
theorem exists_bandsFrom_eq {least : Nat} {bands : List Band} (h : LegalBandsFrom least bands) :
    ∃ seeds, bandsFrom least seeds = bands := by
  induction bands generalizing least with
  | nil => exact ⟨[], rfl⟩
  | cons b bs ih =>
    obtain ⟨hb, hc, hbs⟩ := legalBandsFrom_cons.1 h
    obtain ⟨seeds, rfl⟩ := ih hbs
    refine ⟨⟨b.threshold - least, b.conservative, b.aggressive - b.conservative⟩ :: seeds, ?_⟩
    simp only [bandsFrom, Nat.add_sub_cancel' hb, Nat.add_sub_cancel' hc]

theorem KSeed.toKCfg_valid (seed : KSeed) : seed.toKCfg.Valid :=
  legalBandsFrom_zero_iff_valid.1 ⟨List.cons_ne_nil _ _, bandsFrom_legal 0 (seed.first :: seed.rest)⟩

theorem KCfg.Valid.exists_toKCfg_eq {k : KCfg} (h : k.Valid) : ∃ seed : KSeed, seed.toKCfg = k := by
  obtain ⟨hne, hbands⟩ := legalBandsFrom_zero_iff_valid.2 h
  obtain ⟨seeds, hs⟩ := exists_bandsFrom_eq hbands
  cases seeds with
  | nil => exact absurd hs.symm hne
  | cons first rest => exact ⟨⟨k.motionThreshold, first, rest⟩, by rw [KSeed.toKCfg, hs]⟩

/-- R87: the hardware's own constants, whatever they are. -/
theorem Config.kernel_valid : Config.kernel.Valid := Config.kernelSeed.toKCfg_valid

/-- Settles O16: a seed's bands are legal by construction, and the differences of legal bands give back their seed. -/
theorem openConstantsAreExactlyTheLegalOnes : Obligations.OpenConstantsAreExactlyTheLegalOnes := by
  refine ⟨Config.kernel_valid, fun k => ⟨KCfg.Valid.exists_toKCfg_eq, ?_⟩⟩
  rintro ⟨seed, rfl⟩
  exact seed.toKCfg_valid

end Sys2Proof
end

/-! The addresses of a footprint, one for each position of the block (R15, R59). -/
section

namespace Sys2Proof.Machine

open Sys2Proof

theorem Footprint.addresses_eq_map_product (f : Footprint) : f.addresses =
    (List.range f.extent.h ×ˢ List.range f.extent.w).map fun rc => f.addr rc.1 rc.2 := by
  simp only [Footprint.addresses, SProd.sprod, List.product, List.map_flatMap, List.map_map, Function.comp_def]

theorem Footprint.length_addresses (f : Footprint) : f.addresses.length = f.extent.w * f.extent.h := by
  rw [f.addresses_eq_map_product, List.length_map, List.length_product, List.length_range, List.length_range,
    Nat.mul_comm]

theorem Footprint.nodup_addresses {f : Footprint} (hs : f.extent.w ≤ f.stride) : f.addresses.Nodup := by
  rw [f.addresses_eq_map_product]
  refine List.Nodup.map_on ?_ (List.nodup_range.product List.nodup_range)
  rintro ⟨r, c⟩ hp ⟨r', c'⟩ hp' h
  obtain ⟨-, hc⟩ := List.mem_product.1 hp
  obtain ⟨-, hc'⟩ := List.mem_product.1 hp'
  obtain ⟨rfl, rfl⟩ := Footprint.addr_inj hs (List.mem_range.1 hc) (List.mem_range.1 hc') h
  rfl

/-- Settles O19: the addresses are the image of the `H × W` positions, and the address of a position is injective when the
stride is at least the width. -/
theorem footprintHasOneAddressPerPosition : Obligations.FootprintHasOneAddressPerPosition := fun f =>
  ⟨fun _ => Footprint.mem_addresses, fun _ => Footprint.contains_iff, f.length_addresses, Footprint.nodup_addresses⟩

end Sys2Proof.Machine
end

/-! The accept of a command (R30), each of its outcomes said once, and the statements about it. -/
section

namespace Sys2Proof.Machine

open Sys2Proof

theorem getElem?_set_of_some {l : List Inst} {n : Nat} {I J : Inst} (h : l[n]? = some I) : (l.set n J)[n]? = some J :=
  List.getElem?_set_self (List.getElem?_eq_some_iff.1 h).1

theorem Inst.isBusy_iff {I : Inst} : I.isBusy = true ↔ I.status = stBusy := beq_iff_eq

theorem Inst.isBusy_eq_false {I : Inst} : I.isBusy = false ↔ I.status ≠ stBusy := beq_eq_false_iff_ne

theorem Inst.isDone_iff {I : Inst} : I.isDone = true ↔ I.status = stDone := beq_iff_eq

theorem acceptCommand_busy {g : CmdRegs} {s : State} {I : Inst} (hI : s.insts[s.sel]? = some I) (hb : I.isBusy = true) :
    acceptCommand g s = .next s := by simp [acceptCommand, State.withInst_of hI, hb]

/-- R30, R142: within contract, an instance that is not BUSY accepts. -/
theorem acceptCommand_of {g : CmdRegs} {s : State} {I : Inst} (hI : s.insts[s.sel]? = some I) (hb : I.isBusy = false)
    (hd : g.InDomain s.params) (hc : s.ClearFor s.sel g) :
    acceptCommand g s = .next (s.setInst s.sel (I.accepted g)) := by
  simp [acceptCommand, State.withInst_of hI, hb, contractBreach_eq_none.2 ⟨hd, hc⟩]

/-- R30, R57: the accept transition executes the command that waits. -/
theorem acceptOffer_of {n : Nat} {s : State} {I : Inst} {d : Desc} {i : Instr} (hI : s.insts[n]? = some I)
    (hd : I.offered = some d) (hi : decode d = .ok i) : acceptOffer n s = exec i (s.select n) := by
  simp [acceptOffer, fetchCommand, hI, hd, hi]

/-- Settles O21: no check fires, so the command is accepted. -/
theorem fltLumaIsAccepted : Obligations.FltLumaIsAccepted :=
  fun _ _ _ _ _ _ _ _ _ _ hI hb hd hc => acceptCommand_of hI (Inst.isBusy_eq_false.2 hb) hd hc

/-- Settles O22: no check fires, so the command is accepted. -/
theorem fltChromaIsAccepted : Obligations.FltChromaIsAccepted :=
  fun _ _ _ _ _ _ _ _ _ _ hI hb hd hc => acceptCommand_of hI (Inst.isBusy_eq_false.2 hb) hd hc

theorem exec_busy {i : Instr} {s : State} {I : Inst} (hI : s.insts[s.sel]? = some I) (hb : I.isBusy = true) :
    exec i s = .next s := by rw [exec_eq, acceptCommand_busy hI hb]

/-- Settles O23: exec at a BUSY instance answers the same state, and the accept transition is exec there. -/
theorem busyInstanceLeavesTheDescriptorWaiting : Obligations.BusyInstanceLeavesTheDescriptorWaiting := by
  intro i s I d hb hi
  replace hb := Inst.isBusy_iff.2 hb
  refine ⟨fun hI => exec_busy hI hb, fun n hI hd => ⟨?_, rfl, rfl⟩⟩
  exact (acceptOffer_of hI hd hi).trans (exec_busy (s := s.select n) hI hb)

/-- Settles O25: exec answers the same state or one in which the instance `s.sel` alone is replaced. -/
theorem acceptingLeavesAllElseAlone : Obligations.AcceptingLeavesAllElseAlone := by
  intro i s t h
  rw [exec_eq] at h
  obtain ⟨I, -, ⟨-, rfl⟩ | ⟨-, -, rfl⟩⟩ := acceptCommand_next h
  · exact ⟨fun _ => rfl, rfl, rfl, rfl, rfl, rfl, rfl, fun _ _ => rfl⟩
  · exact ⟨fun _ => rfl, rfl, rfl, rfl, rfl, rfl, List.length_set, fun m hm => List.getElem?_set_ne hm.symm⟩

theorem descOfTableWord_256 (w : Nat) : descOfTableWord 256 w = BitVec.ofNat 256 w :=
  BitVec.eq_of_toNat_eq (by simp [descOfTableWord])

theorem decode_of_decodeTableWord {nbits w : Nat} {i : Instr} (h : decodeTableWord nbits w = some i) :
    decode (descOfTableWord nbits w) = .ok i := by
  simp only [decodeTableWord] at h
  cases hd : decode (descOfTableWord nbits w) with
  | error e => rw [hd] at h; cases h
  | ok j => rw [hd] at h; cases h; rfl

theorem placeDescriptor_eq {s : State} {I : Inst} (d : Desc) (hI : s.insts[0]? = some I) :
    placeDescriptor d s =
      { s with agenda := .accept 0 :: s.agenda, insts := s.insts.set 0 { I with offered := some d } } := by
  simp [placeDescriptor, List.modify_eq_set_getElem?, hI]

/-- The step at an accept where a command waits is exec of that command. -/
theorem step_accept {s : State} {n : Nat} {rest : List Event} {I : Inst} {d : Desc} {i : Instr}
    (ha : s.agenda = .accept n :: rest) (hI : s.insts[n]? = some I) (hd : I.offered = some d) (hi : decode d = .ok i) :
    step s = exec i { s with agenda := rest, sel := n } :=
  (step_of_upcoming (State.upcoming_cons ha)).trans (acceptOffer_of (s := { s with agenda := rest }) hI hd hi)

/-- Settles O26: the second part is the first at the state in which the word has been placed. -/
theorem stepRunsTheDecodedCommand : Obligations.StepRunsTheDecodedCommand := by
  refine ⟨fun s n rest I d i ha hI hd hi => step_accept ha hI hd hi, fun s I w i hI hw => ?_⟩
  replace hw := decode_of_decodeTableWord hw
  rw [descOfTableWord_256] at hw
  rw [State.withFetchWord, descOfTableWord_256, placeDescriptor_eq _ hI]
  exact step_accept rfl (getElem?_set_of_some hI) rfl hw

end Sys2Proof.Machine
end

/-! What a transition can change (R20, R21, R22, R27), read off `Performed`. -/
section

namespace Sys2Proof.Machine

open Sys2Proof

/-- The instance whose transition or host action the event is (R32, R170): none for a host access to memory. -/
def Event.owner : Event → Option Nat
  | .offer n _ | .withdraw n | .accept n | .pixel n | .reset n | .readStatus n => some n
  | .hostRead _ | .hostWrite _ _ => none

@[simp] theorem pixelNext_params (s : State) (n : Nat) (I : Inst) (g : CmdRegs) : (pixelNext s n I g).params = s.params := rfl

@[simp] theorem pixelNext_insts (s : State) (n : Nat) (I : Inst) (g : CmdRegs) :
    (pixelNext s n I g).insts = s.insts.set n (I.advance g.extent I.row.toNat I.col.toNat) := rfl

variable {e : Event} {s t : State}

theorem Performed.params (h : Performed e s t) : t.params = s.params := by cases h <;> rfl

/-- A transition replaces its own instance at most, whose command registers an accept or a reset alone changes (R20, R22). -/
theorem Performed.insts (h : Performed e s t) : t.insts = s.insts ∨
    ∃ n I J, e.owner = some n ∧ s.insts[n]? = some I ∧ t.insts = s.insts.set n J ∧
      (J.cmd = I.cmd ∨ (e = .accept n ∨ e = .reset n) ∧ I.isBusy = false) := by
  cases h with
  | acceptNothing | acceptWaits | pixelIdle | hostRead | hostWrite => exact .inl rfl
  | offer hI | withdraw hI | readStatus hI => exact .inr ⟨_, _, _, rfl, hI, rfl, .inl rfl⟩
  | pixel hI => exact .inr ⟨_, _, _, rfl, hI, rfl, .inl (Inst.advance_cmd ..)⟩
  | accept hI _ _ hb => exact .inr ⟨_, _, _, rfl, hI, rfl, .inr ⟨.inl rfl, hb⟩⟩
  | reset hI hb => exact .inr ⟨_, _, _, rfl, hI, rfl, .inr ⟨.inr rfl, hb⟩⟩

theorem Performed.length_insts (h : Performed e s t) : t.insts.length = s.insts.length := by
  obtain h | ⟨n, I, J, -, -, h, -⟩ := h.insts <;> simp [h]

theorem Performed.insts_of_none (h : Performed e s t) (he : e.owner = none) : t.insts = s.insts := by
  obtain h | ⟨n, I, J, hn, -⟩ := h.insts
  · exact h
  · simp [he] at hn

theorem Performed.getElem?_of_ne {m : Nat} (h : Performed e s t) (he : e.owner ≠ some m) :
    t.insts[m]? = s.insts[m]? := by
  obtain h | ⟨n, I, J, hn, -, h, -⟩ := h.insts
  · rw [h]
  · rw [h, List.getElem?_set_ne]
    rintro rfl
    exact he hn

/-- R21: the two transitions that write memory. -/
theorem Performed.mem (h : Performed e s t) :
    t.mem = s.mem ∨ (∃ n I, e = .pixel n ∧ s.insts[n]? = some I ∧ I.isBusy = true) ∨ ∃ a v, e = .hostWrite a v := by
  cases h with
  | pixel hI hb => exact .inr (.inl ⟨_, _, rfl, hI, hb⟩)
  | hostWrite => exact .inr (.inr ⟨_, _, rfl⟩)
  | _ => exact .inl rfl

/-- Settles O50: the upcoming state differs in its agenda alone, and no transition changes the parameters. -/
theorem constantsNeverChange : Obligations.ConstantsNeverChange := by
  intro s t h
  rcases step_next h with ⟨-, rfl⟩ | ⟨e, -, hp⟩
  · simp
  · simpa using And.intro hp.params hp.length_insts

/-- Settles O51: another instance is not replaced, and its own one is with the same registers unless at an accept or reset. -/
theorem registersChangeOnlyAtAcceptOrReset : Obligations.RegistersChangeOnlyAtAcceptOrReset := by
  intro e s t n I J h hI hJ hne
  obtain heq | ⟨m, I', J', -, hI', heq, hcmd⟩ := (perform_next h).insts
  · rw [heq, hI] at hJ
    cases hJ
    exact absurd rfl hne
  · rw [heq] at hJ
    by_cases hm : m = n
    · subst hm
      rw [getElem?_set_of_some hI'] at hJ
      cases hJ
      rw [hI] at hI'
      cases hI'
      obtain ⟨he, hb⟩ := hcmd.resolve_left hne
      exact ⟨he, Inst.isBusy_eq_false.1 hb⟩
    · rw [List.getElem?_set_ne hm, hI] at hJ
      cases hJ
      exact absurd rfl hne

/-- Settles O52: every other transition answers the memory it had. -/
theorem memoryChangesOnlyByPixelStepOrHostWrite : Obligations.MemoryChangesOnlyByPixelStepOrHostWrite := by
  intro e s t h hne
  obtain ⟨n, I, he, hI, hb⟩ | hw := (perform_next h).mem.resolve_left hne
  · exact .inl ⟨n, I, he, hI, Inst.isBusy_iff.1 hb⟩
  · exact .inr hw

/-- Settles O53: a transition replaces no instance but its own, and a host access to memory has none. -/
theorem transitionsTouchOneInstanceOnly : Obligations.TransitionsTouchOneInstanceOnly := by
  intro s t n m hm
  refine ⟨fun e he h => (perform_next h).getElem?_of_ne ?_, fun e he h => (perform_next h).insts_of_none ?_⟩
  · have hn : e.owner = some n := by rcases he with rfl | rfl | rfl | rfl | rfl | ⟨d, rfl⟩ <;> rfl
    simpa [hn] using hm.symm
  · rcases he with ⟨a, rfl⟩ | ⟨a, v, rfl⟩ <;> rfl

end Sys2Proof.Machine
end

/-! Memory after a write (R21), and what the host does at the command interface and to `STATUS` (R30, R164). -/
section

namespace Sys2Proof

/-- The bits of `W0` are the low bits of the descriptor (R65). -/
theorem Desc.extractLsb'_w0 {d : Desc} {i k : Nat} (h : i + k ≤ 32) : (Desc.w0 d).extractLsb' i k = d.extractLsb' i k := by
  apply BitVec.eq_of_getLsbD_eq
  intro j hj
  simp [Desc.w0, hj, show i + j < 32 by omega]

/-- The low byte of `W0` is the opcode (R66). -/
theorem descOpcode_eq_masked (d : Desc) : descOpcode d = (Desc.w0 d &&& 0xFF#32).extractLsb' 0 8 := by
  rw [BitVec.extractLsb'_and, show (0xFF#32).extractLsb' 0 8 = BitVec.allOnes 8 from rfl, BitVec.and_allOnes]
  exact (Desc.extractLsb'_w0 (by omega)).symm

/-- The upper 23 bits of `W0` are the reserved ones (R66). -/
theorem descReserved_eq_masked (d : Desc) : descReserved d = (Desc.w0 d &&& 0xFFFFFE00#32).extractLsb' 9 23 := by
  rw [BitVec.extractLsb'_and, show (0xFFFFFE00#32).extractLsb' 9 23 = BitVec.allOnes 23 from rfl, BitVec.and_allOnes]
  exact (Desc.extractLsb'_w0 (by omega)).symm

/-- R70: a well-formed descriptor encodes a command. -/
theorem decode_of_wellFormed {d : Desc} (h : Desc.wellFormed d = true) : ∃ i, decode d = .ok i := by
  obtain ⟨hopc, hrsv⟩ := Bool.and_eq_true_iff.1 h
  have hr : descReserved d = 0#23 := by rw [descReserved_eq_masked, beq_iff_eq.1 hrsv]; rfl
  rcases Bool.or_eq_true_iff.1 hopc with ho | ho
  · have : descOpcode d = 0x01#8 := by rw [descOpcode_eq_masked, beq_iff_eq.1 ho]; rfl
    exact ⟨_, by simp [decode, hr, this]; rfl⟩
  · have : descOpcode d = 0x02#8 := by rw [descOpcode_eq_masked, beq_iff_eq.1 ho]; rfl
    exact ⟨_, by simp [decode, hr, this]; rfl⟩

end Sys2Proof

namespace Sys2Proof.Machine

open Sys2Proof

/-- Settles O20, from the laws of a write: at its address, elsewhere, and on the form. -/
theorem writtenByteReadsBackAndFormIsKept : Obligations.WrittenByteReadsBackAndFormIsKept := fun m a v h =>
  ⟨Memory.read_write_self h a v, fun _ hx => m.read_write_ne v hx, Memory.write_wf h a v⟩

theorem stBusy_ne_stIdle : stBusy ≠ stIdle := by decide

theorem stDone_ne_stIdle : stDone ≠ stIdle := by decide

theorem stDone_ne_stBusy : stDone ≠ stBusy := by decide

theorem offerDescriptor_of {n : Nat} {s : State} {I : Inst} {d : Desc} {i : Instr} (hI : s.insts[n]? = some I)
    (hd : decode d = .ok i) : offerDescriptor n d s = .next (s.setInst n { I with offered := some d }) := by
  simp [offerDescriptor, State.withInst_of hI, hd]

theorem withdrawDescriptor_of {n : Nat} {s : State} {I : Inst} (hI : s.insts[n]? = some I) :
    withdrawDescriptor n s = .next (s.setInst n { I with offered := none }) := State.withInst_of hI _

theorem readStatus_of {n : Nat} {s : State} {I : Inst} (hI : s.insts[n]? = some I) : readStatus n s = .next
    { s.setInst n { I with handed := if I.isDone then [] else I.handed } with seen := some (.status n I.status) } :=
  State.withInst_of hI _

/-- Settles O44: a well-formed descriptor decodes, so that the offer is not refused. -/
theorem offerAndWithdrawOnlyChangeWhatWaits : Obligations.OfferAndWithdrawOnlyChangeWhatWaits := by
  intro s n I d hI hd
  obtain ⟨i, hi⟩ := decode_of_wellFormed hd
  exact ⟨offerDescriptor_of hI hi, withdrawDescriptor_of hI⟩

/-- R164: what is held when no command runs and none is unread. -/
theorem Inst.held_of_done {I : Inst} (hd : I.status = stDone) (hh : I.handed = []) : I.held = I.waiting := by
  simp [Inst.held, Inst.running, (show I.isBusy = false from Inst.isBusy_eq_false.2 (hd ▸ stDone_ne_stBusy)), hh]

/-- Settles O43: at DONE nothing runs and the read clears what is handed over, else the read changes no instance. -/
theorem readingDoneGivesTheBuffersBack : Obligations.ReadingDoneGivesTheBuffersBack := by
  intro s n I hI
  refine ⟨_, _, readStatus_of hI, rfl, rfl, rfl, rfl, rfl, rfl, rfl, rfl, fun hd => ?_, fun hd => ?_⟩
  · exact Inst.held_of_done hd (if_pos (Inst.isDone_iff.2 hd))
  · rw [if_neg (mt Inst.isDone_iff.1 hd)]

end Sys2Proof.Machine
end

/-! The state after reset (R33), and the invariant there and along every step. -/
section

namespace Sys2Proof.Machine

open Sys2Proof

theorem Inst.eq_reset_of_mem {I : Inst} (h : I ∈ State.reset.insts) : I = Inst.reset := List.eq_of_mem_replicate h

/-- Nothing is enabled when no instance is BUSY and nothing waits. -/
theorem State.enabled_eq_none {s : State} (h : ∀ I ∈ s.insts, I.isBusy = false ∧ I.offered = none) : s.enabled = none := by
  have hb : s.firstBusy = none := List.findIdx?_eq_none_iff.2 fun I hI => (h I hI).1
  have hw : s.firstWaiting = none := List.findIdx?_eq_none_iff.2 fun I hI => by simp [(h I hI).2]
  simp [State.enabled, hb, hw]

theorem step_of_enabled_none {s : State} (ha : s.agenda = []) (h : s.enabled = none) : step s = .next s := by
  simp [step, State.upcoming_nil ha, h]

/-- Settles O45: every instance is the reset one, so nothing is enabled. -/
theorem resetStateIsIdleAndStays : Obligations.ResetStateIsIdleAndStays := by
  refine ⟨fun I hI => ?_, ?_, step_of_enabled_none rfl (State.enabled_eq_none fun I hI => ?_)⟩
  · rw [Inst.eq_reset_of_mem hI]
    exact ⟨rfl, rfl, rfl, rfl⟩
  · simp [State.reset, Config.nInst]
  · rw [Inst.eq_reset_of_mem hI]
    exact ⟨rfl, rfl⟩

/-! ## One instance -/

section

variable {p : Params} {I : Inst} {g : CmdRegs}

theorem Inst.Inv.reset {handed : List CmdRegs} (h : ∀ c ∈ handed, c.admissible p) (offered : Option Desc) :
    Inst.Inv p { Inst.reset with offered, handed } where
  code := .inl rfl
  rest _ := ⟨rfl, rfl⟩
  idle _ := rfl
  done hd := absurd (Inst.isDone_iff.1 hd) stDone_ne_stIdle.symm
  busy hb := absurd (Inst.isBusy_iff.1 hb) stBusy_ne_stIdle.symm
  legal := h

theorem Inst.Inv.offered (h : I.Inv p) (d : Option Desc) : Inst.Inv p { I with offered := d } :=
  ⟨h.code, h.rest, h.idle, h.done, h.busy, h.legal⟩

theorem Inst.Inv.accepted (h : I.Inv p) (hg : g.admissible p) : (I.accepted g).Inv p where
  code := .inr (.inl rfl)
  rest hb := absurd rfl (Inst.isBusy_eq_false.1 hb)
  idle hi := absurd hi stBusy_ne_stIdle
  done hd := absurd (Inst.isDone_iff.1 hd) stDone_ne_stBusy.symm
  busy _ := ⟨g, rfl, List.mem_cons_self, (CmdRegs.extent_pos hg.1).2, (CmdRegs.extent_pos hg.1).1⟩
  legal := List.forall_mem_cons.2 ⟨hg, h.legal⟩

/-- The read of STATUS gives footprints back at DONE alone, when no counter or register depends on them. -/
theorem Inst.Inv.statusRead (h : I.Inv p) : Inst.Inv p { I with handed := if I.isDone then [] else I.handed } where
  code := h.code
  rest := h.rest
  idle := h.idle
  done := h.done
  busy hb := by
    have hd : I.isDone ≠ true := fun hd => stDone_ne_stBusy ((Inst.isDone_iff.1 hd).symm.trans (Inst.isBusy_iff.1 hb))
    simpa only [if_neg hd] using h.busy hb
  legal c hc := by
    split at hc
    · cases hc
    · exact h.legal c hc

theorem toNat_counter {k : Nat} {c : CmdRegs} (h : k < c.extent.w ∨ k < c.extent.h) : (BitVec.ofNat 5 k).toNat = k := by
  have := c.extent_le
  rw [BitVec.toNat_ofNat]
  omega

/-- A BUSY instance whose counters lie in the block of its command, handed over, is in order (R24, R25). -/
theorem Inst.Inv.of_busy (hb : I.status = stBusy) (hl : ∀ c ∈ I.handed, c.admissible p) (hc : I.cmd = some g)
    (hg : g ∈ I.handed) (hrow : I.row.toNat < g.extent.h) (hcol : I.col.toNat < g.extent.w) : I.Inv p where
  code := .inr (.inl hb)
  rest hn := absurd hb (Inst.isBusy_eq_false.1 hn)
  idle hi := absurd (hb.symm.trans hi) stBusy_ne_stIdle
  done _ := by simp [hc]
  busy _ := ⟨g, hc, hg, hrow, hcol⟩
  legal := hl

/-- The raster advance keeps an instance in order, in its three cases (R25, R115). -/
theorem Inst.Inv.advance (h : I.Inv p) (hb : I.isBusy = true) (hc : I.cmd = some g) :
    (I.advance g.extent I.row.toNat I.col.toNat).Inv p := by
  obtain ⟨g', hg', hmem, hrow, hcol⟩ := h.busy hb
  obtain rfl : g' = g := Option.some.inj (hg'.symm.trans hc)
  have hbusy := Inst.isBusy_iff.1 hb
  rw [Inst.advance]
  split_ifs with hw hh
  · exact .of_busy hbusy h.legal hc hmem hrow (by rwa [toNat_counter (.inl hw)])
  · exact .of_busy hbusy h.legal hc hmem (by rwa [toNat_counter (.inr hh)]) (Nat.zero_lt_of_lt hcol)
  · exact {
      code := .inr (.inr rfl)
      rest := fun _ => ⟨rfl, rfl⟩
      idle := fun hi => absurd hi stDone_ne_stIdle
      done := fun _ => by simp [hc]
      busy := fun hb => absurd (Inst.isBusy_iff.1 hb) stDone_ne_stBusy
      legal := h.legal }

end

/-! ## Memory -/

theorem Params.accessible_iff {p : Params} {a : Nat} :
    p.accessible a = true ↔ a < Config.addressSpace ∧ p.allocated a = true := by simp [Params.accessible]

theorem pixelMemory_wf {k : KCfg} {g : CmdRegs} {r c : Nat} {m : Memory} (h : m.wf) : (pixelMemory k g r c m).wf := by
  simp only [pixelMemory]
  split_ifs
  · exact Memory.write_wf (Memory.write_wf h ..) ..
  · exact Memory.write_wf h ..

theorem pixelMemory_inSpace {p : Params} {k : KCfg} {g : CmdRegs} {r c : Nat} {m : Memory} (h : m.inSpace)
    (ha : pixelAccessible p g r c = true) : (pixelMemory k g r c m).inSpace := by
  simp only [pixelAccessible, Bool.and_eq_true, Params.accessible_iff] at ha
  obtain ⟨⟨-, hsrc, -⟩, hout, -⟩ := ha
  simp only [pixelMemory]
  split_ifs
  · exact Memory.write_inSpace (Memory.write_inSpace h hout _) hsrc _
  · exact Memory.write_inSpace h hout _

/-! ## The machine -/

section

variable {s : State}

/-- The invariant speaks of memory, the constants and the instances alone. -/
theorem State.Inv.of_eq {t : State} (h : s.Inv) (hm : t.mem = s.mem) (hp : t.params = s.params) (hi : t.insts = s.insts) :
    t.Inv where
  memWf := hm ▸ h.memWf
  memSpace := hm ▸ h.memSpace
  kernel := hp ▸ h.kernel
  insts := by rw [hi, hp]; exact h.insts
  raceFree := by rw [State.RaceFree, hi]; exact h.raceFree

theorem State.Inv.withMem (h : s.Inv) {m : Memory} (hw : m.wf) (hs : m.inSpace) : State.Inv { s with mem := m } :=
  ⟨hw, hs, h.kernel, h.insts, h.raceFree⟩

theorem State.Inv.inst (h : s.Inv) {n : Nat} {I : Inst} (hI : s.insts[n]? = some I) : I.Inv s.params :=
  h.insts I (List.mem_of_getElem? hI)

/-- An instance in order may replace another if each command it has newly handed over is clear of all others (R55). -/
theorem State.Inv.setInst (h : s.Inv) {n : Nat} {I J : Inst} (hI : s.insts[n]? = some I) (hJ : J.Inv s.params)
    (hh : ∀ c ∈ J.handed, c ∈ I.handed ∨ s.ClearFor n c) : (s.setInst n J).Inv := by
  have hclear : ∀ m K, m ≠ n → s.insts[m]? = some K → ∀ c ∈ J.handed, ∀ d ∈ K.handed, c.conflicts d = false := by
    intro m K hm hK c hc d hd
    rcases hh c hc with hc | hc
    · exact h.raceFree n m I K hI hK hm.symm c hc d hd
    · exact CmdRegs.conflicts_eq_false.2 (CmdRegs.apart_comm (hc m K hm hK d (List.mem_append_right _ hd)))
  refine ⟨h.memWf, h.memSpace, h.kernel, fun K hK => ?_, fun a b A B hA hB hab c hc d hd => ?_⟩
  · rcases List.mem_or_eq_of_mem_set hK with hK | rfl
    · exact h.insts K hK
    · exact hJ
  · rw [State.setInst_insts] at hA hB
    by_cases ha : a = n
    · subst ha
      rw [getElem?_set_of_some hI] at hA
      rw [List.getElem?_set_ne hab] at hB
      cases hA
      exact hclear b B hab.symm hB c hc d hd
    · rw [List.getElem?_set_ne (Ne.symm ha)] at hA
      by_cases hb : b = n
      · subst hb
        rw [getElem?_set_of_some hI] at hB
        cases hB
        exact CmdRegs.conflicts_eq_false.2 (CmdRegs.apart_comm (CmdRegs.conflicts_eq_false.1 (hclear a A ha hA d hd c hc)))
      · rw [List.getElem?_set_ne (Ne.symm hb)] at hB
        exact h.raceFree a b A B hA hB hab c hc d hd

end

theorem cmdRegsOf_opc (i : Instr) : (cmdRegsOf i).opc = 0x01#8 ∨ (cmdRegsOf i).opc = 0x02#8 := by
  cases i <;> simp [cmdRegsOf]

/-- Every transition keeps the invariant. -/
theorem Performed.inv {e : Event} {s t : State} (h : Performed e s t) (hs : s.Inv) : t.Inv := by
  cases h with
  | offer hI | withdraw hI => exact hs.setInst hI ((hs.inst hI).offered _) fun _ => .inl
  | acceptNothing | pixelIdle => exact hs
  | acceptWaits => exact hs.of_eq rfl rfl rfl
  | @accept _ n _ _ _ hI _ _ _ hb =>
    obtain ⟨hd, hc⟩ := contractBreach_eq_none.1 hb
    have hg := CmdRegs.admissible_iff.2 ⟨cmdRegsOf_opc _, hd⟩
    exact State.Inv.setInst (s := s.select n) (hs.of_eq rfl rfl rfl) hI ((hs.inst hI).accepted hg) <|
      List.forall_mem_cons.2 ⟨.inr hc, fun _ => .inl⟩
  | pixel hI hb hg _ _ ha =>
    refine State.Inv.setInst (hs.withMem (pixelMemory_wf hs.memWf) (pixelMemory_inSpace hs.memSpace ha)) hI
      ((hs.inst hI).advance hb hg) fun _ hc => .inl ?_
    rwa [Inst.advance_handed] at hc
  | reset hI => exact hs.setInst hI (.reset (hs.inst hI).legal _) fun _ => .inl
  | readStatus hI =>
    refine State.Inv.of_eq (hs.setInst hI (hs.inst hI).statusRead fun c hc => .inl ?_) rfl rfl rfl
    split at hc
    · cases hc
    · exact hc
  | hostRead => exact hs.of_eq rfl rfl rfl
  | hostWrite _ ha =>
    exact hs.withMem (Memory.write_wf hs.memWf _ _) (Memory.write_inSpace hs.memSpace (Params.accessible_iff.1 ha).1 _)

/-- Settles O46: every instance is the reset one, which holds nothing. -/
theorem invariantHoldsAtReset : Obligations.InvariantHoldsAtReset where
  memWf := ⟨List.Pairwise.nil, by simp [State.reset]⟩
  memSpace := by simp [State.reset]
  kernel := Config.kernel_valid
  insts I hI := by
    rw [Inst.eq_reset_of_mem hI]
    exact .reset (by simp) none
  raceFree n _ I _ hI _ _ c hc := by
    rw [Inst.eq_reset_of_mem (List.mem_of_getElem? hI)] at hc
    cases hc

/-- Settles O47: the upcoming state differs in its agenda alone, and every transition keeps the invariant. -/
theorem everyStepKeepsTheInvariant : Obligations.EveryStepKeepsTheInvariant := by
  intro s t hs h
  have hu : s.upcoming.2.Inv := hs.of_eq (by simp) (by simp) (by simp)
  rcases step_next h with ⟨-, rfl⟩ | ⟨e, -, hp⟩
  · exact hu
  · exact hp.inv hu

end Sys2Proof.Machine
end

/-! What the first pixels of a command leave in memory (R115, R118): the big step, position by position. -/
section

namespace Sys2Proof.Machine

open Sys2Proof

section

variable {p : Params} {k : KCfg} {g : CmdRegs} {r c : Nat} {m m' : Memory}

/-- The kernel's answer for the pixel at `(r, c)` of command `g` (R115). -/
def pixelResultAt (k : KCfg) (g : CmdRegs) (r c : Nat) (m : Memory) : PixelResult :=
  pixelRule k (m.read (g.pred.addr r c)) (m.read (g.src.addr r c)) g.mm g.mode

theorem pixelResultAt_congr (hp : m'.read (g.pred.addr r c) = m.read (g.pred.addr r c))
    (hs : m'.read (g.src.addr r c) = m.read (g.src.addr r c)) : pixelResultAt k g r c m' = pixelResultAt k g r c m := by
  rw [pixelResultAt, hp, hs, pixelResultAt]

/-- R95: where no write to `source` is issued the sample keeps its value. -/
theorem pixelRule_srcNext {p s : Byte} {mm : Motion} {mode : Bit} (h : (pixelRule k p s mm mode).wrSrc = false) :
    (pixelRule k p s mm mode).srcNext = s := by
  simp only [pixelRule] at h ⊢
  split_ifs at h ⊢
  rfl

/-- Every byte after a pixel step. -/
theorem read_pixelMemory (hm : m.wf) (hne : g.out.addr r c ≠ g.src.addr r c) (a : Nat) :
    (pixelMemory k g r c m).read a =
      if a = g.out.addr r c then (pixelResultAt k g r c m).out
      else if a = g.src.addr r c then (pixelResultAt k g r c m).srcNext else m.read a := by
  change (if (pixelResultAt k g r c m).wrSrc then _ else _ : Memory).read a = _
  split_ifs with hw ho hs ho hs
  · rw [Memory.read_write_ne _ _ (ho ▸ hne), Memory.read_write hm, if_pos ho, pixelResultAt]
  · rw [Memory.read_write (Memory.write_wf hm ..), if_pos hs, pixelResultAt]
  · rw [Memory.read_write_ne _ _ hs, Memory.read_write_ne _ _ ho]
  · rw [Memory.read_write hm, if_pos ho, pixelResultAt]
  · rw [Memory.read_write_ne _ _ ho, hs]
    exact (pixelRule_srcNext (Bool.eq_false_of_not_eq_true hw)).symm
  · rw [Memory.read_write_ne _ _ ho]

/-- Positions are told apart by their number in raster order. -/
theorem raster_inj {w r c r' c' : Nat} (hc : c < w) (hc' : c' < w) (h : r * w + c = r' * w + c') : r = r' ∧ c = c' :=
  Footprint.addr_inj (f := ⟨0, w, ⟨w, 0⟩⟩) le_rfl hc hc' (by simpa [Footprint.addr] using h)

theorem raster_lt {w h r c : Nat} (hr : r < h) (hc : c < w) : r * w + c < w * h :=
  calc r * w + c < (r + 1) * w := by rw [Nat.add_mul]; omega
    _ ≤ h * w := Nat.mul_le_mul_right _ hr
    _ = w * h := Nat.mul_comm ..

/-- Memory `m'` comes from `m` by the first `count` pixels of command `g` in raster order: their two bytes hold what the
kernel gives on `m`, every other byte is unchanged. -/
structure FirstPixels (k : KCfg) (g : CmdRegs) (count : Nat) (m m' : Memory) : Prop where
  out  : ∀ r < g.extent.h, ∀ c < g.extent.w, r * g.extent.w + c < count →
    m'.read (g.out.addr r c) = (pixelResultAt k g r c m).out
  src  : ∀ r < g.extent.h, ∀ c < g.extent.w, r * g.extent.w + c < count →
    m'.read (g.src.addr r c) = (pixelResultAt k g r c m).srcNext
  rest : ∀ a, (∀ r < g.extent.h, ∀ c < g.extent.w, r * g.extent.w + c < count →
    a ≠ g.out.addr r c ∧ a ≠ g.src.addr r c) → m'.read a = m.read a

theorem FirstPixels.zero : FirstPixels k g 0 m m := ⟨by simp, by simp, fun _ _ => rfl⟩

/-- All pixels together are the big step of R118. -/
theorem FirstPixels.bigStep (h : FirstPixels k g (g.extent.w * g.extent.h) m m') : BigStep k g m m' where
  out r hr c hc := h.out r hr c hc (raster_lt hr hc)
  src r hr c hc := h.src r hr c hc (raster_lt hr hc)
  frame a ho hs := h.rest a fun _ hr _ hc _ =>
    ⟨fun ha => ho (ha ▸ Footprint.addr_mem hr hc), fun ha => hs (ha ▸ Footprint.addr_mem hr hc)⟩

/-- The next pixel in raster order reads two bytes that the earlier ones left alone, since within contract the footprints
are disjoint and positions have distinct addresses (R59, R60). -/
theorem FirstPixels.succ {count : Nat} (hd : g.InDomain p) (hm : m'.wf) (hr : r < g.extent.h) (hc : c < g.extent.w)
    (hcount : r * g.extent.w + c = count) (h : FirstPixels k g count m m') :
    FirstPixels k g (count + 1) m (pixelMemory k g r c m') := by
  subst hcount
  obtain ⟨hpo, hps, hos⟩ := hd.apart
  obtain ⟨-, hso, hss⟩ := hd.strides
  have hout {r c} (hr : r < g.extent.h) (hc : c < g.extent.w) := Footprint.addr_mem (f := g.out) hr hc
  have hsrc {r c} (hr : r < g.extent.h) (hc : c < g.extent.w) := Footprint.addr_mem (f := g.src) hr hc
  have hpred := Footprint.addr_mem (f := g.pred) hr hc
  have hne {r c r' c'} (hr : r < g.extent.h) (hc : c < g.extent.w) (hr' : r' < g.extent.h) (hc' : c' < g.extent.w) :
      g.out.addr r c ≠ g.src.addr r' c' := fun he => hos _ (hout hr hc) (he ▸ hsrc hr' hc')
  have hres : pixelResultAt k g r c m' = pixelResultAt k g r c m := by
    refine pixelResultAt_congr (h.rest _ fun r' hr' c' hc' _ => ⟨fun he => ?_, fun he => ?_⟩)
      (h.rest _ fun r' hr' c' hc' hlt => ⟨(hne hr' hc' hr hc).symm, fun he => ?_⟩)
    · exact hpo _ hpred (he ▸ hout hr' hc')
    · exact hps _ hpred (he ▸ hsrc hr' hc')
    · obtain ⟨rfl, rfl⟩ := Footprint.addr_inj hss hc hc' he
      exact Nat.lt_irrefl _ hlt
  have hread := read_pixelMemory (k := k) hm (hne hr hc hr hc)
  have hlt {r' c'} (hc' : c' < g.extent.w) (hl : r' * g.extent.w + c' < r * g.extent.w + c + 1)
      (hn : ¬(r' = r ∧ c' = c)) : r' * g.extent.w + c' < r * g.extent.w + c :=
    Nat.lt_of_le_of_ne (Nat.le_of_lt_succ hl) fun he => hn (raster_inj hc' hc he)
  refine ⟨fun r' hr' c' hc' hl => ?_, fun r' hr' c' hc' hl => ?_, fun a ha => ?_⟩
  · by_cases hn : r' = r ∧ c' = c
    · obtain ⟨rfl, rfl⟩ := hn
      rw [hread, if_pos rfl, hres]
    · rw [hread, if_neg fun he => hn (Footprint.addr_inj hso hc' hc he), if_neg (hne hr' hc' hr hc)]
      exact h.out r' hr' c' hc' (hlt hc' hl hn)
  · rw [hread, if_neg (hne hr hc hr' hc').symm]
    by_cases hn : r' = r ∧ c' = c
    · obtain ⟨rfl, rfl⟩ := hn
      rw [if_pos rfl, hres]
    · rw [if_neg fun he => hn (Footprint.addr_inj hss hc' hc he)]
      exact h.src r' hr' c' hc' (hlt hc' hl hn)
  · obtain ⟨ho, hs⟩ := ha r hr c hc (Nat.lt_succ_self _)
    rw [hread, if_neg ho, if_neg hs]
    exact h.rest a fun r' hr' c' hc' hl => ha r' hr' c' hc' (Nat.lt_succ_of_lt hl)

/-- The memory after the first pixels of command `g`, one pixel step after the other (R111, R115). -/
def pixelsMemory (k : KCfg) (g : CmdRegs) (m : Memory) : Nat → Memory
  | 0 => m
  | count + 1 => pixelMemory k g (count / g.extent.w) (count % g.extent.w) (pixelsMemory k g m count)

theorem pixelsMemory_wf (hm : m.wf) (count : Nat) : (pixelsMemory k g m count).wf := by
  induction count with
  | zero => exact hm
  | succ count ih => exact pixelMemory_wf ih

theorem position_lt {w h count : Nat} (hl : count < w * h) : count / w < h ∧ count % w < w :=
  ⟨Nat.div_lt_of_lt_mul hl, Nat.mod_lt _ (Nat.pos_of_mul_pos_right (Nat.zero_lt_of_lt hl))⟩

theorem pixelsMemory_firstPixels (hd : g.InDomain p) (hm : m.wf) {count : Nat} (hl : count ≤ g.extent.w * g.extent.h) :
    FirstPixels k g count m (pixelsMemory k g m count) := by
  induction count with
  | zero => exact .zero
  | succ count ih =>
    obtain ⟨hr, hc⟩ := position_lt hl
    exact (ih (Nat.le_of_lt hl)).succ hd (pixelsMemory_wf hm count) hr hc (Nat.div_add_mod' count g.extent.w)

theorem pixelsMemory_bigStep (hd : g.InDomain p) (hm : m.wf) :
    BigStep k g m (pixelsMemory k g m (g.extent.w * g.extent.h)) :=
  (pixelsMemory_firstPixels hd hm le_rfl).bigStep

/-- R28: the big step is a function of the bytes of the `prediction` and `source` footprints. -/
theorem BigStep.congr {m₁ m₁' m₂ m₂' : Memory} (h₁ : BigStep k g m₁ m₁') (h₂ : BigStep k g m₂ m₂')
    (h : ∀ a, a ∈ g.pred.addresses ∨ a ∈ g.src.addresses → m₁.read a = m₂.read a) {a : Nat} (ha : g.MayWrite a) :
    m₁'.read a = m₂'.read a := by
  have hp {r c} (hr : r < g.extent.h) (hc : c < g.extent.w) := h _ (.inl (Footprint.addr_mem (f := g.pred) hr hc))
  have hs {r c} (hr : r < g.extent.h) (hc : c < g.extent.w) := h _ (.inr (Footprint.addr_mem (f := g.src) hr hc))
  rcases ha with ha | ha <;> obtain ⟨r, hr, c, hc, rfl⟩ := Footprint.mem_addresses.1 ha
  · rw [h₁.out r hr c hc, h₂.out r hr c hc, hp hr hc, hs hr hc]
  · rw [h₁.src r hr c hc, h₂.src r hr c hc, hp hr hc, hs hr hc]

end

end Sys2Proof.Machine
end

/-! The synchronous call (R75): offer, accept, every pixel step and the read of `STATUS`, in one run. -/
section

namespace Sys2Proof

open Machine

/-- The decoder reads back the command that the encoder wrote (R70). -/
theorem decode_encode (i : Instr) : decode (encode i) = .ok i := by
  cases i with
  | fltLuma mode pb ps ob os sb ss mm | fltChroma mode pb ps ob os sb ss mm =>
    simp [decode, encode, descControl_descOfFields, descFields_descOfFields]

end Sys2Proof

namespace Sys2Proof.Machine

open Sys2Proof

section

variable {s t : State} {n : Nat} {I : Inst} {g : CmdRegs}

/-- CV7 looks at the other instances alone. -/
theorem State.ClearFor.of_others (h : s.ClearFor n g) (ht : ∀ m, m ≠ n → t.insts[m]? = s.insts[m]?) : t.ClearFor n g :=
  fun m J hm hJ => h m J hm (ht m hm ▸ hJ)

/-- R50: the three bytes of a position of a command within contract can be accessed. -/
theorem pixelAccessible_of_inDomain {p : Params} {r c : Nat} (hd : g.InDomain p) (hr : r < g.extent.h)
    (hc : c < g.extent.w) : pixelAccessible p g r c = true := by
  obtain ⟨-, htop, -⟩ := CmdRegs.inDomain_iff.1 hd
  simp only [CmdRegs.passesTop, Bool.or_eq_false_iff] at htop
  obtain ⟨⟨hp, ho⟩, hs⟩ := htop
  simp only [pixelAccessible, Bool.and_eq_true, Params.accessible_iff]
  exact ⟨⟨⟨Footprint.addr_lt_space hp hr hc, hd.allocated _ (.inl (Footprint.addr_mem hr hc))⟩,
    Footprint.addr_lt_space hs hr hc, hd.allocated _ (.inr (.inr (Footprint.addr_mem hr hc)))⟩,
    Footprint.addr_lt_space ho hr hc, hd.allocated _ (.inr (.inl (Footprint.addr_mem hr hc)))⟩

/-- Instance `I` after the first pixels of its command's block, whose extent is `e` (R25, R115). -/
def Inst.afterPixels (I : Inst) (e : Extent) (count : Nat) : Inst :=
  if count < e.w * e.h then { I with row := BitVec.ofNat 5 (count / e.w), col := BitVec.ofNat 5 (count % e.w) }
  else { I with row := 0#5, col := 0#5, status := stDone }

theorem Inst.afterPixels_all (e : Extent) :
    I.afterPixels e (e.w * e.h) = { I with row := 0#5, col := 0#5, status := stDone } := if_neg (Nat.lt_irrefl _)

theorem Inst.afterPixels_of_position {e : Extent} {r c : Nat} (hr : r < e.h) (hc : c < e.w) :
    I.afterPixels e (r * e.w + c) = { I with row := BitVec.ofNat 5 r, col := BitVec.ofNat 5 c } := by
  obtain ⟨hdiv, hmod⟩ := (Nat.div_mod_unique (a := r * e.w + c) (Nat.zero_lt_of_lt hc)).2
    ⟨by rw [Nat.mul_comm, Nat.add_comm], hc⟩
  rw [Inst.afterPixels, if_pos (raster_lt hr hc), hdiv, hmod]

/-- The raster advance leads from one position to the next: in the row, to the next row, or to the end of the block. -/
theorem Inst.advance_afterPixels {e : Extent} {r c : Nat} (hr : r < e.h) (hc : c < e.w) :
    (I.afterPixels e (r * e.w + c)).advance e r c = I.afterPixels e (r * e.w + c + 1) := by
  rw [Inst.afterPixels_of_position hr hc, Inst.advance]
  split_ifs with hw hh
  · exact (Inst.afterPixels_of_position hr hw).symm
  · have hnext : r * e.w + c + 1 = (r + 1) * e.w + 0 := by rw [Nat.add_mul]; omega
    rw [hnext, Inst.afterPixels_of_position hh (Nat.zero_lt_of_lt hc)]
  · have hend : r * e.w + c + 1 = e.w * e.h := by
      rw [show e.h = r + 1 by omega, Nat.mul_add, Nat.mul_comm r]; omega
    rw [hend, Inst.afterPixels_all]

/-- The state after the first pixels of the command `g` on instance `n`, which is `I` at `(0, 0)` in `s`. -/
def State.afterPixels (s : State) (n : Nat) (I : Inst) (g : CmdRegs) (count : Nat) : State :=
  { s with
    mem := pixelsMemory s.params.kernel g s.mem count
    insts := s.insts.set n (I.afterPixels g.extent count) }

/-- At `(0, 0)` no pixel has been taken. -/
theorem State.afterPixels_zero (hI : s.insts[n]? = some I) (he : 0 < g.extent.w ∧ 0 < g.extent.h) (hr : I.row = 0#5)
    (hc : I.col = 0#5) : s.afterPixels n I g 0 = s := by
  have hzero : I.afterPixels g.extent 0 = I := by
    rw [Inst.afterPixels, if_pos (Nat.mul_pos he.1 he.2), Nat.zero_div, Nat.zero_mod]
    exact (congrArg₂ (fun r c => { I with row := r, col := c }) hr hc).symm
  obtain ⟨hn, rfl⟩ := List.getElem?_eq_some_iff.1 hI
  rw [State.afterPixels, hzero, List.set_getElem_self]
  rfl

/-- R115: each pixel step of a command within contract completes and is the next one in raster order. -/
theorem pixelStep_afterPixels (hI : s.insts[n]? = some I) (hb : I.status = stBusy) (hg : I.cmd = some g)
    (hd : g.InDomain s.params) {count : Nat} (hl : count < g.extent.w * g.extent.h) :
    pixelStep n (s.afterPixels n I g count) = .next (s.afterPixels n I g (count + 1)) := by
  obtain ⟨hr, hc⟩ := position_lt hl
  have hat : I.afterPixels g.extent count =
      { I with row := BitVec.ofNat 5 (count / g.extent.w), col := BitVec.ofNat 5 (count % g.extent.w) } := if_pos hl
  have hrow : (I.afterPixels g.extent count).row.toNat = count / g.extent.w := by rw [hat, toNat_counter (.inr hr)]
  have hcol : (I.afterPixels g.extent count).col.toNat = count % g.extent.w := by rw [hat, toNat_counter (.inl hc)]
  have hbusy : (I.afterPixels g.extent count).isBusy = true := by rw [hat]; exact Inst.isBusy_iff.2 hb
  have hcmd : (I.afterPixels g.extent count).cmd = some g := by rw [hat]; exact hg
  rw [pixelStep_of (getElem?_set_of_some hI) hbusy hcmd (hrow ▸ hr) (hcol ▸ hc)
    (by rw [hrow, hcol]; exact pixelAccessible_of_inDomain hd hr hc)]
  have hadv := Inst.advance_afterPixels (I := I) hr hc
  rw [Nat.div_add_mod'] at hadv
  simp only [pixelNext, hrow, hcol, State.afterPixels, List.set_set, hadv, pixelsMemory]

/-! ## Runs of an agenda -/

theorem run_succ (h : step s = .next t) (k : Nat) : core.run (k + 1) s = core.run k t := by
  have hstep : core.step s = .next t := h
  simp only [Host.Core.run, hstep]

/-- The state with another agenda. -/
def State.withAgenda (s : State) (agenda : List Event) : State := { s with agenda }

theorem State.withAgenda_self {agenda : List Event} (h : s.agenda = agenda) : s.withAgenda agenda = s := by
  subst h; rfl

/-- A run performs the agenda's next entry. -/
theorem run_withAgenda_cons {e : Event} {rest : List Event}
    (h : perform e (s.withAgenda rest) = .next (t.withAgenda rest)) (k : Nat) :
    core.run (k + 1) (s.withAgenda (e :: rest)) = core.run k (t.withAgenda rest) :=
  run_succ ((step_of_upcoming rfl).trans h) k

/-- Pixel steps of one command within contract, as many as are left of its block at most. -/
theorem run_pixels (hI : s.insts[n]? = some I) (hb : I.status = stBusy) (hg : I.cmd = some g)
    (hd : g.InDomain s.params) (rest : List Event) (j : Nat) {k count : Nat} (hl : count + k ≤ g.extent.w * g.extent.h) :
    core.run (k + j) ((s.afterPixels n I g count).withAgenda (List.replicate k (.pixel n) ++ rest)) =
      core.run j ((s.afterPixels n I g (count + k)).withAgenda rest) := by
  induction k generalizing count with
  | zero => rw [Nat.zero_add]; rfl
  | succ k ih =>
    have hpixel (l : List Event) : perform (.pixel n) ((s.afterPixels n I g count).withAgenda l) =
        .next ((s.afterPixels n I g (count + 1)).withAgenda l) :=
      pixelStep_afterPixels (s := s.withAgenda l) hI hb hg hd (by omega)
    rw [Nat.add_right_comm, List.replicate_succ, List.cons_append, run_withAgenda_cons (hpixel _), ih (by omega),
      Nat.add_assoc, Nat.add_comm 1]

/-- The state after the synchronous call of the command `g` on instance `n`, the host having read DONE (R75, R164). -/
def State.afterCall (s : State) (n : Nat) (g : CmdRegs) : State where
  mem    := pixelsMemory s.params.kernel g s.mem (g.extent.w * g.extent.h)
  insts  := s.insts.set n ⟨some g, 0#5, 0#5, stDone, none, []⟩
  params := s.params
  agenda := []
  sel    := n
  seen   := some (.status n stDone)

/-- The end of a synchronous call, once its command is accepted. -/
theorem run_accepted (hI : s.insts[n]? = some (I.accepted g)) (hs : s.sel = n)
    (hg : g.opc = 0x01#8 ∨ g.opc = 0x02#8) (hd : g.InDomain s.params) :
    core.run (g.extent.w * g.extent.h + 1)
      (s.withAgenda (List.replicate (g.extent.w * g.extent.h) (.pixel n) ++ [.readStatus n])) = .next (s.afterCall n g) := by
  have hpixels := run_pixels hI rfl rfl hd [.readStatus n] 1 (k := g.extent.w * g.extent.h) (count := 0) (by omega)
  rw [Nat.zero_add, State.afterPixels_zero hI (CmdRegs.extent_pos hg) rfl rfl] at hpixels
  have hread : perform (.readStatus n) ((s.afterPixels n (I.accepted g) g (g.extent.w * g.extent.h)).withAgenda []) =
      .next ((s.afterCall n g).withAgenda []) := by
    refine (readStatus_of (getElem?_set_of_some hI)).trans ?_
    subst hs
    simp only [State.afterPixels, State.withAgenda, State.afterCall, State.setInst, Inst.afterPixels_all, List.set_set]
    rfl
  rw [hpixels, run_withAgenda_cons hread]
  rfl

/-- R30: the accept transition at an instance that is not BUSY, for a command within contract. -/
theorem acceptOffer_next_of {d : Desc} {i : Instr} (hI : s.insts[n]? = some I) (hb : I.isBusy = false)
    (ho : I.offered = some d) (hi : decode d = .ok i) (hd : (cmdRegsOf i).InDomain s.params)
    (hc : s.ClearFor n (cmdRegsOf i)) :
    acceptOffer n s = .next ((s.select n).setInst n (I.accepted (cmdRegsOf i))) := by
  rw [acceptOffer_of hI ho hi, exec_eq]
  exact acceptCommand_of (s := s.select n) hI hb hd hc

/-- The synchronous call from its accept on. -/
theorem run_offered {i : Instr} (hI : s.insts[n]? = some I) (hb : I.isBusy = false) (ho : I.offered = some (encode i))
    (hd : (cmdRegsOf i).InDomain s.params) (hc : s.ClearFor n (cmdRegsOf i)) :
    core.run ((cmdRegsOf i).extent.w * (cmdRegsOf i).extent.h + 1 + 1) (s.withAgenda (synchronousCall n i).tail) =
      .next (s.afterCall n (cmdRegsOf i)) := by
  have haccept (l : List Event) : perform (.accept n) (s.withAgenda l) =
      .next (((s.select n).setInst n (I.accepted (cmdRegsOf i))).withAgenda l) :=
    acceptOffer_next_of (s := s.withAgenda l) hI hb ho (decode_encode i) hd hc
  rw [synchronousCall, List.tail_cons, run_withAgenda_cons (haccept _),
    run_accepted (s := (s.select n).setInst n _) (getElem?_set_of_some hI) rfl (cmdRegsOf_opc i) hd]
  simp [State.afterCall]

/-- R75: the synchronous call of a command within contract completes. -/
theorem run_synchronousCall {i : Instr} (hI : s.insts[n]? = some I) (hb : I.status ≠ stBusy)
    (hd : (cmdRegsOf i).InDomain s.params) (hc : s.ClearFor n (cmdRegsOf i)) :
    core.run (synchronousCall n i).length (s.withAgenda (synchronousCall n i)) = .next (s.afterCall n (cmdRegsOf i)) := by
  have hlen : (synchronousCall n i).length = (cmdRegsOf i).extent.w * (cmdRegsOf i).extent.h + 1 + 1 + 1 := by
    simp [synchronousCall]
  have hoffer (l : List Event) : perform (.offer n (encode i)) (s.withAgenda l) =
      .next ((s.setInst n { I with offered := some (encode i) }).withAgenda l) :=
    offerDescriptor_of (s := s.withAgenda l) hI (decode_encode i)
  have hrun := run_offered (s := s.setInst n _) (I := { I with offered := some (encode i) }) (getElem?_set_of_some hI)
    (Inst.isBusy_eq_false.2 hb) rfl hd (hc.of_others fun m hm => List.getElem?_set_ne hm.symm)
  rw [hlen, synchronousCall, run_withAgenda_cons (hoffer _)]
  refine hrun.trans ?_
  simp [State.afterCall]

end

/-- Settles O39: both calls end with the big step, a function of the bytes the command reads. -/
theorem effectDependsOnlyOnDescriptorAndFootprints : Obligations.EffectDependsOnlyOnDescriptorAndFootprints := by
  intro i s s' n n' I I' hm hm' hk ha ha' hI hI' hb hb' hd hd' hc hc' hread
  have hrun := run_synchronousCall hI hb hd hc
  have hrun' := run_synchronousCall hI' hb' hd' hc'
  rw [State.withAgenda_self ha, ← ha] at hrun
  rw [State.withAgenda_self ha', ← ha'] at hrun'
  refine ⟨_, _, hrun, hrun', fun a hw => ?_⟩
  exact (pixelsMemory_bigStep hd hm).congr (hk ▸ pixelsMemory_bigStep hd' hm') hread hw

end Sys2Proof.Machine
end

/-! Bytes that several parties share: which ones a pixel step leaves alone (R45, R48), pixel steps of two instances (R55),
and the accesses of the host (R54, R170). -/
section

namespace Sys2Proof.Machine

open Sys2Proof

/-! ## The bytes of one pixel -/

section

variable {p : Params} {k : KCfg} {g d : CmdRegs} {r c r' c' a : Nat} {m m' : Memory}

theorem CmdRegs.MayWrite.touches (h : g.MayWrite a) : g.Touches a := .inr h

/-- R88, R95: the write to `source` is issued unless the command is gated. -/
theorem pixelRule_wrSrc (k : KCfg) (p s : Byte) (mm : Motion) (mode : Bit) :
    (pixelRule k p s mm mode).wrSrc = !gated k mm := by
  rw [pixelRule]
  split_ifs with h <;> simp [h]

/-- R45, R48: a pixel step writes its `output` byte and, unless gated, its `source` byte, whatever the form of memory. -/
theorem read_pixelMemory_of_ne (ho : a ≠ g.out.addr r c) (hs : a ≠ g.src.addr r c ∨ gated k g.mm = true) :
    (pixelMemory k g r c m).read a = m.read a := by
  simp only [pixelMemory, pixelRule_wrSrc]
  split_ifs with hw
  · have hs : a ≠ g.src.addr r c := hs.resolve_right (by simpa using hw)
    rw [Memory.read_write_ne _ _ hs, Memory.read_write_ne _ _ ho]
  · exact Memory.read_write_ne _ _ ho

theorem read_pixelMemory_of_not_mayWrite (hr : r < g.extent.h) (hc : c < g.extent.w) (ha : ¬g.MayWrite a) :
    (pixelMemory k g r c m).read a = m.read a :=
  read_pixelMemory_of_ne (fun ho => ha (.inl (ho ▸ Footprint.addr_mem hr hc)))
    (.inl fun hs => ha (.inr (hs ▸ Footprint.addr_mem hr hc)))

/-- A byte after a pixel step is a function of the kernel's answer and of that byte before. -/
theorem read_pixelMemory_congr (hm : m.wf) (hm' : m'.wf) (hd : g.InDomain p) (hr : r < g.extent.h) (hc : c < g.extent.w)
    (hres : pixelResultAt k g r c m' = pixelResultAt k g r c m) (ha : m'.read a = m.read a) :
    (pixelMemory k g r c m').read a = (pixelMemory k g r c m).read a := by
  obtain ⟨-, -, hos⟩ := hd.apart
  have hne : g.out.addr r c ≠ g.src.addr r c := fun he =>
    hos _ (Footprint.addr_mem (f := g.out) hr hc) (he ▸ Footprint.addr_mem (f := g.src) hr hc)
  rw [read_pixelMemory hm' hne, read_pixelMemory hm hne, hres, ha]

/-- R55: a pixel of a command writes no byte that a command apart from it reads. -/
theorem pixelResultAt_pixelMemory (h : g.Apart d) (hr : r < g.extent.h) (hc : c < g.extent.w) (hr' : r' < d.extent.h)
    (hc' : c' < d.extent.w) : pixelResultAt k g r c (pixelMemory k d r' c' m) = pixelResultAt k g r c m := by
  have hkeep {a} (ha : g.Touches a) : (pixelMemory k d r' c' m).read a = m.read a :=
    read_pixelMemory_of_not_mayWrite hr' hc' fun hw => (h a).2 ⟨hw, ha⟩
  exact pixelResultAt_congr (hkeep (.inl (Footprint.addr_mem (f := g.pred) hr hc)))
    (hkeep (.inr (.inr (Footprint.addr_mem (f := g.src) hr hc))))

/-- A byte that the second command may not write reads alike in both orders: as after the first command's pixel alone. -/
theorem read_pixelMemory_comm (hm : m.wf) (h : g.Apart d) (hd : g.InDomain p) (hr : r < g.extent.h) (hc : c < g.extent.w)
    (hr' : r' < d.extent.h) (hc' : c' < d.extent.w) (ha : ¬d.MayWrite a) :
    (pixelMemory k g r c (pixelMemory k d r' c' m)).read a = (pixelMemory k d r' c' (pixelMemory k g r c m)).read a :=
  calc (pixelMemory k g r c (pixelMemory k d r' c' m)).read a
    _ = (pixelMemory k g r c m).read a := read_pixelMemory_congr hm (pixelMemory_wf hm) hd hr hc
      (pixelResultAt_pixelMemory h hr hc hr' hc') (read_pixelMemory_of_not_mayWrite hr' hc' ha)
    _ = (pixelMemory k d r' c' (pixelMemory k g r c m)).read a := (read_pixelMemory_of_not_mayWrite hr' hc' ha).symm

/-- R55: pixels of two commands that are apart may be taken in either order, since no byte may be written by both. -/
theorem pixelMemory_comm (hm : m.wf) (h : g.Apart d) (hg : g.InDomain p) (hd : d.InDomain p) (hr : r < g.extent.h)
    (hc : c < g.extent.w) (hr' : r' < d.extent.h) (hc' : c' < d.extent.w) :
    pixelMemory k g r c (pixelMemory k d r' c' m) = pixelMemory k d r' c' (pixelMemory k g r c m) := by
  refine Memory.ext_read (pixelMemory_wf (pixelMemory_wf hm)) (pixelMemory_wf (pixelMemory_wf hm)) fun a => ?_
  by_cases ha : d.MayWrite a
  · have hn : ¬g.MayWrite a := fun hw => (h a).1 ⟨hw, ha.touches⟩
    exact (read_pixelMemory_comm hm (CmdRegs.apart_comm h) hd hr' hc' hr hc hn).symm
  · exact read_pixelMemory_comm hm h hg hr hc hr' hc' ha

end

/-! ## Pixel steps of two instances -/

section

variable {s t : State} {n m : Nat} {I J : Inst} {g d : CmdRegs}

theorem Performed.getElem?_of_pixel (h : Performed (.pixel m) s t) (hnm : n ≠ m) : t.insts[n]? = s.insts[n]? :=
  h.getElem?_of_ne fun he => hnm (Option.some.inj he).symm

/-- Commands handed over to two instances are apart (R55). -/
theorem State.Inv.apart (hs : s.Inv) (hI : s.insts[n]? = some I) (hJ : s.insts[m]? = some J) (hnm : n ≠ m)
    (hg : g ∈ I.handed) (hd : d ∈ J.handed) : g.Apart d :=
  CmdRegs.conflicts_eq_false.1 (hs.raceFree n m I J hI hJ hnm g hg d hd)

/-- The instance is BUSY at a position of the command `g`, handed over and within contract. -/
structure Inst.AtPixel (p : Params) (I : Inst) (g : CmdRegs) : Prop where
  busy     : I.isBusy = true
  cmd      : I.cmd = some g
  handed   : g ∈ I.handed
  inDomain : g.InDomain p
  row      : I.row.toNat < g.extent.h
  col      : I.col.toNat < g.extent.w

theorem Inst.Inv.exists_atPixel {p : Params} (h : I.Inv p) (hb : I.isBusy = true) : ∃ g, I.AtPixel p g := by
  obtain ⟨g, hg, hmem, hr, hc⟩ := h.busy hb
  exact ⟨g, hb, hg, hmem, (CmdRegs.admissible_iff.1 (h.legal g hmem)).2, hr, hc⟩

theorem Inst.Inv.atPixel {p : Params} (h : I.Inv p) (hb : I.isBusy = true) (hg : I.cmd = some g) : I.AtPixel p g := by
  obtain ⟨g', hI⟩ := h.exists_atPixel hb
  exact Option.some.inj (hg.symm.trans hI.cmd) ▸ hI

theorem Inst.AtPixel.pixelStep (h : I.AtPixel s.params g) (hI : s.insts[n]? = some I) :
    pixelStep n s = .next (pixelNext s n I g) :=
  pixelStep_of hI h.busy h.cmd h.row h.col (pixelAccessible_of_inDomain h.inDomain h.row h.col)

theorem pixelStep_idle (hI : s.insts[n]? = some I) (hb : I.isBusy = false) : pixelStep n s = .next s := by
  simp [pixelStep, State.withInst_of hI, hb]

/-- The pixel steps of instances `n` and `m` complete in both orders and end in one state. -/
def State.PixelsCommute (s : State) (n m : Nat) : Prop :=
  ∃ a b u, pixelStep n s = .next a ∧ pixelStep m a = .next u ∧ pixelStep m s = .next b ∧ pixelStep n b = .next u

theorem State.PixelsCommute.symm : s.PixelsCommute n m → s.PixelsCommute m n := fun ⟨a, b, u, hn, hm, hm', hn'⟩ =>
  ⟨b, a, u, hm', hn', hn, hm⟩

/-- In a state of the invariant the pixel step of every instance completes (R117). -/
theorem State.Inv.exists_pixelStep (hs : s.Inv) (hI : s.insts[n]? = some I) : ∃ t, pixelStep n s = .next t := by
  cases hb : I.isBusy with
  | false => exact ⟨s, pixelStep_idle hI hb⟩
  | true =>
    obtain ⟨g, hg⟩ := (hs.inst hI).exists_atPixel hb
    exact ⟨_, hg.pixelStep hI⟩

/-- The step of an instance that is not BUSY does nothing, before another's step and after it. -/
theorem State.Inv.pixelsCommute_idle (hs : s.Inv) (hnm : n ≠ m) (hI : s.insts[n]? = some I) (hJ : s.insts[m]? = some J)
    (hb : I.isBusy = false) : s.PixelsCommute n m := by
  obtain ⟨t, ht⟩ := hs.exists_pixelStep hJ
  have hIt : t.insts[n]? = some I := ((pixelStep_next ht).getElem?_of_pixel hnm).trans hI
  exact ⟨s, t, t, pixelStep_idle hI hb, ht, ht, pixelStep_idle hIt hb⟩

theorem pixelNext_comm (hm : s.mem.wf) (hnm : n ≠ m) (hg : I.AtPixel s.params g) (hd : J.AtPixel s.params d)
    (h : g.Apart d) : pixelNext (pixelNext s n I g) m J d = pixelNext (pixelNext s m J d) n I g := by
  simp only [pixelNext, List.set_comm _ _ hnm,
    pixelMemory_comm hm h hg.inDomain hd.inDomain hg.row hg.col hd.row hd.col]

/-- Two BUSY instances: each step leaves the other instance as it was, and their memories and instances commute (R55). -/
theorem State.Inv.pixelsCommute_busy (hs : s.Inv) (hnm : n ≠ m) (hI : s.insts[n]? = some I) (hJ : s.insts[m]? = some J)
    (hb : I.isBusy = true) (hb' : J.isBusy = true) : s.PixelsCommute n m := by
  obtain ⟨g, hg⟩ := (hs.inst hI).exists_atPixel hb
  obtain ⟨d, hd⟩ := (hs.inst hJ).exists_atPixel hb'
  have hJn : (pixelNext s n I g).insts[m]? = some J := (List.getElem?_set_ne hnm).trans hJ
  have hIm : (pixelNext s m J d).insts[n]? = some I := (List.getElem?_set_ne hnm.symm).trans hI
  refine ⟨_, _, _, hg.pixelStep hI, hd.pixelStep (s := pixelNext s n I g) hJn, hd.pixelStep hJ, ?_⟩
  rw [pixelNext_comm hs.memWf hnm hg hd (hs.apart hI hJ hnm hg.handed hd.handed)]
  exact hg.pixelStep (s := pixelNext s m J d) hIm

end

/-- Settles O29: the step is that of a BUSY instance, whose memory is `pixelMemory` of its command. -/
theorem pixelStepTouchesOnlyItsTwoBytes : Obligations.PixelStepTouchesOnlyItsTwoBytes := by
  intro s t n I g h hI hb hg
  have hp := perform_next h
  refine ⟨fun a ho hs => ?_, fun m hm => hp.getElem?_of_pixel hm, hp.params⟩
  cases hp with
  | pixelIdle => rfl
  | pixel hI' _ hg' =>
    obtain rfl := Option.some.inj (hI'.symm.trans hI)
    obtain rfl := Option.some.inj (hg'.symm.trans hg)
    exact read_pixelMemory_of_ne ho (hs.imp_right fun hgate => decide_eq_true hgate)

/-- Settles O36: the other instance's command is apart from the BUSY one's, and it writes its own footprints alone. -/
theorem otherInstancesNeverDisturbABusyOne : Obligations.OtherInstancesNeverDisturbABusyOne := by
  intro s t n m I g hs hnm hI hb hg h
  have hp := perform_next h
  refine ⟨fun a ha => ?_, (hp.getElem?_of_pixel hnm).trans hI⟩
  cases hp with
  | pixelIdle => rfl
  | pixel hJ hb' hd hr hc =>
    have hgI := ((hs.inst hI).atPixel (Inst.isBusy_iff.2 hb) hg).handed
    have hdJ := ((hs.inst hJ).atPixel hb' hd).handed
    exact read_pixelMemory_of_not_mayWrite hr hc fun hw => (hs.apart hI hJ hnm hgI hdJ a).2 ⟨hw, ha⟩

/-- Settles O35: an instance that is not BUSY does nothing, and the commands of two BUSY ones are apart. -/
theorem pixelStepsOfTwoInstancesCommute : Obligations.PixelStepsOfTwoInstancesCommute := by
  intro s n m I J hs hnm hI hJ
  cases hb : I.isBusy with
  | false => exact hs.pixelsCommute_idle hnm hI hJ hb
  | true =>
    cases hb' : J.isBusy with
    | false => exact (hs.pixelsCommute_idle hnm.symm hJ hI hb').symm
    | true => exact hs.pixelsCommute_busy hnm hI hJ hb hb'

/-! ## The host's accesses -/

section

variable {s : State} {a : Address}

theorem State.isHeld_eq_false {x : Nat} : s.isHeld x = false ↔ ∀ I ∈ s.insts, ∀ g ∈ I.held, ¬g.Touches x := by
  simp only [State.isHeld, List.any_eq_false, List.any_eq_true, not_exists, not_and, CmdRegs.touches_iff]

theorem hostRead_of (hh : s.isHeld a.toNat = false) (ha : s.params.accessible a.toNat = true) :
    hostRead a s = .next { s with seen := some (.byte a (s.mem.read a.toNat)) } := by
  simp [hostRead, hh, ha, State.readByte]

theorem hostWrite_of (hh : s.isHeld a.toNat = false) (ha : s.params.accessible a.toNat = true) (v : Byte) :
    hostWrite a v s = .next (s.writeByte a.toNat v) := by simp [hostWrite, hh, ha]

end

/-- Settles O42: neither check fires, before the write or after it. -/
theorem hostReadsAndWritesItsOwnBytes : Obligations.HostReadsAndWritesItsOwnBytes := by
  intro s a v hm hfree halloc
  have hh : s.isHeld a.toNat = false := State.isHeld_eq_false.2 hfree
  have ha : s.params.accessible a.toNat = true := Params.accessible_iff.2 ⟨a.isLt, halloc⟩
  refine ⟨hostRead_of hh ha, _, _, hostWrite_of hh ha v, fun x hx => s.mem.read_write_ne v hx, rfl, rfl,
    hostRead_of (s := s.writeByte a.toNat v) hh ha, ?_⟩
  simp [Memory.read_write_self hm]

end Sys2Proof.Machine
end

/-! The decoder, the encoder and the row test of the opcode table (R68, R70), the refusal of what is ill formed (R71), the
textual form (R74) and the synchronous call (R75). -/
section

namespace Sys2Proof

section

variable {d : Desc} {i : Instr}

/-- `FLT.LUMA` with the operands that stand in the descriptor (R66). -/
def Desc.asLuma (d : Desc) : Instr :=
  .fltLuma (descMode d) (descBase d 1) (descStride d 2) (descBase d 3) (descStride d 4) (descBase d 5) (descStride d 6)
    (descMotion d)

/-- `FLT.CHROMA` with the operands that stand in the descriptor (R66). -/
def Desc.asChroma (d : Desc) : Instr :=
  .fltChroma (descMode d) (descBase d 1) (descStride d 2) (descBase d 3) (descStride d 4) (descBase d 5) (descStride d 6)
    (descMotion d)

/-- What decodes to which command: the reserved bits are zero and the opcode is the command's (R70). -/
theorem decode_eq_ok_iff : decode d = .ok i ↔ descReserved d = 0#23 ∧
    (descOpcode d = 0x01#8 ∧ Desc.asLuma d = i ∨ descOpcode d = 0x02#8 ∧ Desc.asChroma d = i) := by
  unfold decode
  split_ifs with hr h1 h2
  · simp [hr]
  · simp [not_not.1 hr, h1, Desc.asLuma]
  · simp [not_not.1 hr, h2, Desc.asChroma]
  · simp [h1, h2]

theorem decode_asLuma (hr : descReserved d = 0#23) (ho : descOpcode d = 0x01#8) : decode d = .ok (Desc.asLuma d) :=
  decode_eq_ok_iff.2 ⟨hr, .inl ⟨ho, rfl⟩⟩

theorem decode_asChroma (hr : descReserved d = 0#23) (ho : descOpcode d = 0x02#8) : decode d = .ok (Desc.asChroma d) :=
  decode_eq_ok_iff.2 ⟨hr, .inr ⟨ho, rfl⟩⟩

/-- The encoder writes back the descriptor that the decoder read (R70). -/
theorem encode_of_decode (h : decode d = .ok i) : encode i = d := by
  obtain ⟨hr, ⟨ho, rfl⟩ | ⟨ho, rfl⟩⟩ := decode_eq_ok_iff.1 h
  · exact (ho ▸ descOfFields_fields hr :)
  · exact (ho ▸ descOfFields_fields hr :)

/-- R70: well formed are the descriptors that the encoder writes, hence those that decode. -/
theorem wellFormed_iff_decode : Desc.wellFormed d = true ↔ ∃ i, decode d = .ok i := by
  refine ⟨decode_of_wellFormed, fun ⟨i, hi⟩ => ?_⟩
  rw [← encode_of_decode hi]
  cases i with
  | fltLuma => exact Laws.EncodeWellFormed.fltLuma ..
  | fltChroma => exact Laws.EncodeWellFormed.fltChroma ..

theorem wellFormed_iff_fields :
    Desc.wellFormed d = true ↔ (descOpcode d = 0x01#8 ∨ descOpcode d = 0x02#8) ∧ descReserved d = 0#23 := by
  simp only [wellFormed_iff_decode, decode_eq_ok_iff, exists_and_left, exists_or, exists_eq', and_true]
  exact and_comm

/-- R71: a descriptor that is not well formed encodes no command. -/
theorem decode_error_of_not_wellFormed (h : Desc.wellFormed d = false) : ∃ e, decode d = .error e := by
  cases hd : decode d with
  | error e => exact ⟨e, rfl⟩
  | ok i => simp [wellFormed_iff_decode.2 ⟨i, hd⟩] at h

/-- The mask of the opcode table leaves out `MODE` alone (R68). -/
theorem controlWord_and_mask (opc : BitVec 8) (mode : Bit) :
    controlWord opc mode &&& 0xFFFFFEFF#32 = controlWord opc 0#1 := by
  rw [show 0xFFFFFEFF#32 = BitVec.allOnes 23 ++ (0#1 ++ BitVec.allOnes 8) from rfl, controlWord, BitVec.and_append,
    BitVec.and_append, BitVec.and_allOnes, BitVec.and_allOnes, BitVec.and_zero]
  rfl

/-- The row test of the opcode table is a test of the reserved bits and the opcode, whatever the other bits are (R68). -/
theorem rowTest_iff {opc : BitVec 8} :
    Desc.w0 d &&& 0xFFFFFEFF#32 = controlWord opc 0#1 ↔ descReserved d = 0#23 ∧ descOpcode d = opc := by
  constructor
  · intro h
    obtain ⟨ho, -, hr⟩ := descControl_descOfFields 0 0 0 0 0 0 0 opc 0#1
    rw [← Laws.EncodeWellFormed.w0_descOfFields (controlWord opc 0#1) 0 0 0 0 0 0 0] at h
    have hsub {m : Word} (hm : 0xFFFFFEFF#32 &&& m = m) :
        Desc.w0 d &&& m = Desc.w0 (descOfFields (controlWord opc 0#1) 0 0 0 0 0 0 0) &&& m := by
      rw [← h, BitVec.and_assoc, hm]
    rw [descReserved_eq_masked, hsub (by decide), ← descReserved_eq_masked, hr, descOpcode_eq_masked, hsub (by decide),
      ← descOpcode_eq_masked, ho]
    exact ⟨rfl, rfl⟩
  · rintro ⟨hr, rfl⟩
    have hw := Laws.EncodeWellFormed.w0_descOfFields (controlWord (descOpcode d) (descMode d)) (descBase d 1)
      (descStride d 2) (descBase d 3) (descStride d 4) (descBase d 5) (descStride d 6) (descMotion d)
    rw [descOfFields_fields hr] at hw
    rw [hw, controlWord_and_mask]

/-- The row of `FLT.LUMA` (R68). -/
theorem rowTest_luma_iff : Desc.w0 d &&& 0xFFFFFEFF#32 = 0x00000001#32 ↔
    ∃ mode pb ps ob os sb ss mm, decode d = .ok (.fltLuma mode pb ps ob os sb ss mm) := by
  refine (rowTest_iff (opc := 0x01#8)).trans ⟨fun ⟨hr, ho⟩ => ⟨_, _, _, _, _, _, _, _, decode_asLuma hr ho⟩, ?_⟩
  rintro ⟨mode, pb, ps, ob, os, sb, ss, mm, h⟩
  obtain ⟨hr, ⟨ho, -⟩ | ⟨-, hi⟩⟩ := decode_eq_ok_iff.1 h
  · exact ⟨hr, ho⟩
  · cases hi

/-- The row of `FLT.CHROMA` (R68). -/
theorem rowTest_chroma_iff : Desc.w0 d &&& 0xFFFFFEFF#32 = 0x00000002#32 ↔
    ∃ mode pb ps ob os sb ss mm, decode d = .ok (.fltChroma mode pb ps ob os sb ss mm) := by
  refine (rowTest_iff (opc := 0x02#8)).trans ⟨fun ⟨hr, ho⟩ => ⟨_, _, _, _, _, _, _, _, decode_asChroma hr ho⟩, ?_⟩
  rintro ⟨mode, pb, ps, ob, os, sb, ss, mm, h⟩
  obtain ⟨hr, ⟨-, hi⟩ | ⟨ho, -⟩⟩ := decode_eq_ok_iff.1 h
  · cases hi
  · exact ⟨hr, ho⟩

/-- R68: `W0` is the only word that takes part. -/
theorem wellFormed_congr_w0 {d' : Desc} (h : Desc.w0 d = Desc.w0 d') : Desc.wellFormed d = Desc.wellFormed d' := by
  simp only [Desc.wellFormed, Desc.opcodeDefined, Desc.reservedZero, h]

end

end Sys2Proof

namespace Sys2Proof.Machine

open Sys2Proof

/-- Settles O2: the decoder by its cases, the encoder by the fields laid side by side. -/
theorem decodeAndEncodeAreInverse : Obligations.DecodeAndEncodeAreInverse :=
  ⟨fun _ hw ho => decode_asLuma (wellFormed_iff_fields.1 hw).2 ho,
    fun _ hw ho => decode_asChroma (wellFormed_iff_fields.1 hw).2 ho, fun _ => wellFormed_iff_fields,
    fun _ => decode_error_of_not_wellFormed, fun _ _ => encode_of_decode, decode_encode⟩

/-- Settles O33: the run ends in `State.afterCall`, whose memory is that of all pixels of the block. -/
theorem synchronousCallReturnsTheFilteredBlock : Obligations.SynchronousCallReturnsTheFilteredBlock := by
  intro i s n I hm ha hI hb hd hc
  have hrun := run_synchronousCall hI hb hd hc
  rw [State.withAgenda_self ha, ← ha] at hrun
  exact ⟨_, _, hrun, rfl, rfl, rfl, Inst.held_of_done rfl rfl, rfl, pixelsMemory_bigStep hd hm⟩

/-- Settles O3: the row test is a test of the reserved bits and the opcode, which the decoder makes too. -/
theorem opcodeTableSelectsTheCommand : Obligations.OpcodeTableSelectsTheCommand := by
  refine ⟨fun _ => rowTest_luma_iff, fun _ => rowTest_chroma_iff, fun _ _ _ _ _ _ _ _ => rfl, fun _ _ _ _ _ _ _ _ => rfl,
    fun d h1 h2 => decode_error_of_not_wellFormed (Bool.eq_false_iff.2 fun hw => ?_)⟩
  exact (wellFormed_iff_fields.1 hw).1.elim h1 h2

/-- R71: the offer of a descriptor that encodes no command is refused. -/
theorem offerDescriptor_of_error {s : State} {n : Nat} {I : Inst} {d : Desc} {e : DecodeError} (hI : s.insts[n]? = some I)
    (hd : decode d = .error e) : offerDescriptor n d s = .refused .cv1 := by
  simp [offerDescriptor, State.withInst_of hI, hd]

/-- R71: so is its accept. -/
theorem acceptOffer_of_error {s : State} {n : Nat} {I : Inst} {d : Desc} {e : DecodeError} (hI : s.insts[n]? = some I)
    (ho : I.offered = some d) (hd : decode d = .error e) : acceptOffer n s = .refused .cv1 := by
  simp [acceptOffer, fetchCommand, hI, ho, hd]

/-- Settles O4: what is not well formed decodes to an error, which the offer and the accept refuse. -/
theorem illFormedDescriptorIsRefused : Obligations.IllFormedDescriptorIsRefused := by
  intro s n I d hI hw
  obtain ⟨e, hd⟩ := decode_error_of_not_wellFormed hw
  exact ⟨offerDescriptor_of_error hI hd, fun ho => acceptOffer_of_error hI ho hd⟩

theorem Text.motion_ofWord (w : Motion) : Text.motion (Text.mm ++ Text.ofWord w) = some w := by
  simp only [Text.motion, Text.strip_append, Text.numeral_ofWord]

theorem Text.modeBit_written :
    ∀ mode : Bit, Text.modeBit (Text.mode ++ [if mode = 1#1 then '1' else '0']) = some mode := by
  decide

/-- A written line names the command that its first word names, with the operands it was written from. -/
theorem commandOfText_ofOperands {name : List Char} (hs : ∀ x ∈ name, x ≠ ' ' ∧ x ≠ '#') (hn : name ≠ [])
    (mode : Bit) (pb : Address) (ps : Stride) (ob : Address) (os : Stride) (sb : Address) (ss : Stride) (mm : Motion) :
    commandOfText (Text.ofOperands name mode pb ps ob os sb ss mm) =
      if name = Text.luma then some (.fltLuma mode pb ps ob os sb ss mm)
      else if name = Text.chroma then some (.fltChroma mode pb ps ob os sb ss mm) else none := by
  simp only [commandOfText, Text.words_ofOperands hs hn, Text.buffer_ofBuffer, Text.motion_ofWord, Text.modeBit_written]

/-- Settles O5: the line divides into its six words, and each operand is read from its word as it was written. -/
theorem textualFormNamesTheCommand : Obligations.TextualFormNamesTheCommand := by
  intro i
  cases i with
  | fltLuma mode pb ps ob os sb ss mm =>
    exact (commandOfText_ofOperands (name := Text.luma) (by simp [Text.luma]) (List.cons_ne_nil _ _) ..).trans (if_pos rfl)
  | fltChroma mode pb ps ob os sb ss mm =>
    have hne : Text.chroma ≠ Text.luma := by decide
    exact (commandOfText_ofOperands (name := Text.chroma) (by simp [Text.chroma]) (List.cons_ne_nil _ _) ..).trans
      ((if_neg hne).trans (if_pos rfl))

/-- Settles O1: the encoder computes the worked descriptors, the decoder reads back what it wrote. -/
theorem workedDescriptorsEncodeAndDecode : Obligations.WorkedDescriptorsEncodeAndDecode := by
  refine ⟨rfl, rfl, decode_encode (.fltChroma 1 0x00001000 8 0x00002000 12 0x00003000 10 10),
    decode_encode (.fltLuma 0 0x00001000 8 0x00002000 12 0x00003000 10 10), fun d hd => ?_⟩
  have hw : Desc.wellFormed d = false :=
    hd.elim (fun h => wellFormed_congr_w0 (d' := 0x00000003#256) h) fun h => wellFormed_congr_w0 (d' := 0x00000201#256) h
  exact ⟨hw, decode_error_of_not_wellFormed hw⟩

end Sys2Proof.Machine
end

/-! The kernel's laws, for every configuration (spec/40_pixel_rule.md): the gate, the bands, the magnitude, the correction. -/
section

namespace Sys2Proof.Machine

open Sys2Proof

/-! ## The gate and the clamp -/

theorem gated_eq_false {k : KCfg} {mm : Motion} : gated k mm = false ↔ mm.toNat ≤ k.motionThreshold := by
  rw [gated, decide_eq_false_iff_not, Nat.not_lt]

/-- R88: above the motion threshold the kernel copies the source sample and issues no write to it. -/
theorem pixelRule_of_gated {k : KCfg} {mm : Motion} (h : gated k mm = true) (p s : Byte) (mode : Bit) :
    pixelRule k p s mm mode = ⟨s, s, false⟩ := if_pos h

/-- R95: with the gate open the corrected value goes to both places. -/
theorem pixelRule_of_open {k : KCfg} {mm : Motion} (h : mm.toNat ≤ k.motionThreshold) (p s : Byte) (mode : Bit) :
    pixelRule k p s mm mode = ⟨corrected k mode p s, corrected k mode p s, true⟩ :=
  if_neg (by simp [gated_eq_false.2 h])

/-- Settles O6: the two sides of the strict comparison are the two branches of the kernel. -/
theorem motionGateSelectsCopyOrCorrection : Obligations.MotionGateSelectsCopyOrCorrection := fun _ p s _ mode =>
  ⟨fun h => pixelRule_of_gated (decide_eq_true h) p s mode, fun h => pixelRule_of_open h p s mode⟩

theorem clamp255_of_neg {x : Int} (h : x < 0) : clamp255 x = 0#8 := by
  rw [clamp255, max_eq_left ((min_le_right 255 x).trans h.le)]
  rfl

theorem clamp255_of_gt {x : Int} (h : 255 < x) : clamp255 x = 255#8 := by
  rw [clamp255, min_eq_left h.le]
  rfl

/-- Settles O12: one law of the clamp for each of the three ranges. -/
theorem clampSaturates : Obligations.ClampSaturates := fun _ => ⟨clamp255_of_neg, clamp255_of_gt, clamp255_of_range⟩

/-! ## The bands -/

section

variable {k : KCfg} {a : Nat}

/-- R90: a difference is at most the threshold of its band. -/
theorem le_threshold_bandOf (h : bandOf k a < k.bands.length) : a ≤ (k.bands[bandOf k a]).threshold :=
  ((bandOf_spec (bandOf_le k a)).1 rfl).1 h

/-- R90: it exceeds every threshold below its band. -/
theorem threshold_lt_of_lt_bandOf {j : Nat} (h : j < k.bands.length) (hj : j < bandOf k a) : (k.bands[j]).threshold < a :=
  ((bandOf_spec (bandOf_le k a)).1 rfl).2 j h hj

theorem bandOf_le_of_le_threshold {j : Nat} (h : j < k.bands.length) (ha : a ≤ (k.bands[j]).threshold) : bandOf k a ≤ j :=
  Nat.le_of_not_lt fun hj => absurd (threshold_lt_of_lt_bandOf h hj) ha.not_gt

/-- P3: the thresholds ascend. -/
theorem threshold_le_of_valid (hk : k.Valid) {i j : Nat} (h : j < k.bands.length) (hij : i ≤ j) :
    (k.bands[i]).threshold ≤ (k.bands[j]).threshold := by
  obtain ⟨-, hasc, -⟩ := hk
  rcases hij.eq_or_lt with rfl | hlt
  · exact le_rfl
  · exact (List.pairwise_iff_getElem.1 hasc i j _ h hlt).le

/-- R90 with P3: a band lies below that of `a` exactly when its threshold does not reach `a`. -/
theorem lt_bandOf_iff_of_valid (hk : k.Valid) {i : Nat} (h : i < k.bands.length) :
    i < bandOf k a ↔ (k.bands[i]).threshold < a := by
  refine ⟨threshold_lt_of_lt_bandOf h, fun ha => Nat.lt_of_not_le fun hi => ?_⟩
  exact absurd ((le_threshold_bandOf (hi.trans_lt h)).trans (threshold_le_of_valid hk h hi)) ha.not_ge

/-- R90 with P3: the band of `a` is no later than one whose threshold reaches `a`, and only then. -/
theorem bandOf_le_iff_of_valid (hk : k.Valid) {i : Nat} (h : i < k.bands.length) :
    bandOf k a ≤ i ↔ a ≤ (k.bands[i]).threshold := by
  rw [← Nat.not_lt, lt_bandOf_iff_of_valid hk h, Nat.not_lt]

end

/-- Settles O7: with ascending thresholds, `i` is below the band of `a` exactly when `T[i] < a`; a band is fixed by what
lies below it and what does not. -/
theorem bandsPartitionTheDifference : Obligations.BandsPartitionTheDifference := by
  intro k a
  refine ⟨bandOf_le k a, le_threshold_bandOf, fun _ => bandOf_le_of_le_threshold,
    fun hk => ⟨fun h => ?_, fun i h => ?_, fun h => ?_⟩⟩
  · rw [← bandOf_le_iff_of_valid hk h, Nat.le_zero]
  · rw [← lt_bandOf_iff_of_valid hk (Nat.lt_of_succ_lt h), ← bandOf_le_iff_of_valid hk h]
    omega
  · have hle : bandOf k a ≤ k.bands.length := bandOf_le k a
    rw [← lt_bandOf_iff_of_valid hk h, KCfg.numBands]
    omega

/-! ## The magnitude -/

section

variable {k : KCfg} {a : Nat}

theorem kernelCap_of_lt {b : Nat} (h : b < k.bands.length) (mode : Bit) :
    kernelCap k mode b = if mode = 1#1 then (k.bands[b]).aggressive else (k.bands[b]).conservative := by
  rw [kernelCap, List.getElem?_eq_getElem h]
  rfl

theorem magnitude_of_lt (h : bandOf k a < k.numBands) (mode : Bit) :
    magnitude k mode a = min a (kernelCap k mode (bandOf k a)) := if_neg h.ne

theorem magnitude_of_top (h : bandOf k a = k.numBands) (mode : Bit) : magnitude k mode a = 0 := if_pos h

/-- P5: the aggressive cap of a band is at least the conservative one. -/
theorem kernelCap_le_of_valid (hk : k.Valid) {b : Nat} (h : b < k.bands.length) :
    kernelCap k 0#1 b ≤ kernelCap k 1#1 b := by
  obtain ⟨-, -, hcap⟩ := hk
  rw [kernelCap_of_lt h, kernelCap_of_lt h]
  exact hcap _ (List.getElem_mem h)

/-- R102 for the magnitude: one band for both modes, and a greater cap. -/
theorem magnitude_mono_mode (hk : k.Valid) (a : Nat) : magnitude k 0#1 a ≤ magnitude k 1#1 a := by
  rcases (bandOf_le k a).eq_or_lt with h | h
  · rw [magnitude_of_top h, magnitude_of_top h]
  · rw [magnitude_of_lt h, magnitude_of_lt h]
    exact min_le_min_left a (kernelCap_le_of_valid hk h)

end

/-- Settles O8: below the top band the cap is that of the mode's table, and the two modes are its two columns. -/
theorem magnitudeIsTheCappedDifference : Obligations.MagnitudeIsTheCappedDifference := by
  refine fun k a => ⟨fun h => ⟨?_, ?_⟩, magnitude_of_top, fun mode => magnitude_le k mode a⟩
  · rw [magnitude_of_lt h, kernelCap_of_lt h, if_neg (by decide)]
  · rw [magnitude_of_lt h, kernelCap_of_lt h, if_pos rfl]

/-- Settles O17: in a full band the cap reaches the threshold and so the difference; above, the cap stays at or below the
threshold under the band, which the difference exceeds. -/
theorem referenceShapeGivesFullThenPartialPull : Obligations.ReferenceShapeGivesFullThenPartialPull := by
  rintro k a full mode ⟨hfull, hlow, hhigh⟩
  refine ⟨fun hb hK => ?_, fun hb hK => ?_⟩
  · have hcap : a ≤ kernelCap k mode (bandOf k a) := by
      rw [kernelCap_of_lt hK]
      exact (le_threshold_bandOf hK).trans (hlow _ hK hb)
    rw [magnitude_of_lt hK, min_eq_left hcap]
  · have hcap : kernelCap k mode (bandOf k a) < a := by
      obtain ⟨i, hi⟩ := Nat.exists_eq_add_of_lt (hfull.trans hb)
      rw [Nat.zero_add] at hi
      have hK' : i + 1 < k.bands.length := hi ▸ hK
      rw [hi, kernelCap_of_lt hK']
      exact (hhigh i hK' (hi ▸ hb)).trans_lt (threshold_lt_of_lt_bandOf (Nat.lt_of_succ_lt hK') (by omega))
    exact ⟨by rw [magnitude_of_lt hK, min_eq_right hcap.le], hcap⟩

/-! ## The correction -/

theorem correction_of_nonneg {k : KCfg} {mode : Bit} {p s : Byte} (h : 0 ≤ pixelDiff p s) :
    correction k mode p s = magnitude k mode (pixelDiff p s).natAbs :=
  if_neg h.not_gt

theorem correction_of_neg {k : KCfg} {mode : Bit} {p s : Byte} (h : pixelDiff p s < 0) :
    correction k mode p s = -(magnitude k mode (pixelDiff p s).natAbs : Int) :=
  if_pos h

/-- R93: the correction moves from 0 towards the difference and not past it. -/
theorem correction_between (k : KCfg) (mode : Bit) (p s : Byte) :
    (0 ≤ correction k mode p s ∧ correction k mode p s ≤ pixelDiff p s) ∨
      (pixelDiff p s ≤ correction k mode p s ∧ correction k mode p s ≤ 0) := by
  have hm := magnitude_le k mode (pixelDiff p s).natAbs
  rcases lt_or_ge (pixelDiff p s) 0 with h | h
  · rw [correction_of_neg h]
    omega
  · rw [correction_of_nonneg h]
    omega

/-- R93 in one equation: the difference's sign times the magnitude. -/
theorem correction_eq_sign_mul (k : KCfg) (mode : Bit) (p s : Byte) :
    correction k mode p s = (pixelDiff p s).sign * magnitude k mode (pixelDiff p s).natAbs := by
  rcases lt_trichotomy (pixelDiff p s) 0 with h | h | h
  · rw [correction_of_neg h, Int.sign_eq_neg_one_of_neg h, neg_one_mul]
  · have hm : magnitude k mode 0 = 0 := Nat.le_zero.1 (magnitude_le k mode 0)
    rw [correction_of_nonneg h.ge, h, Int.natAbs_zero, hm]
    rfl
  · rw [correction_of_nonneg h.le, Int.sign_eq_one_of_pos h, one_mul]

theorem correction_self (k : KCfg) (mode : Bit) (s : Byte) : correction k mode s s = 0 := by
  have hd : pixelDiff s s = 0 := sub_self _
  rw [correction_eq_sign_mul, hd, Int.sign_zero, zero_mul]

/-- R99: the sum lies between two samples. -/
theorem source_add_correction_in_range (k : KCfg) (mode : Bit) (p s : Byte) :
    0 ≤ (s.toNat : Int) + correction k mode p s ∧ (s.toNat : Int) + correction k mode p s ≤ 255 := by
  have hp := p.isLt
  have hs := s.isLt
  have hc := correction_between k mode p s
  rw [pixelDiff] at hc
  omega

theorem corrected_toNat (k : KCfg) (mode : Bit) (p s : Byte) :
    ((corrected k mode p s).toNat : Int) = s.toNat + correction k mode p s :=
  have ⟨h0, h1⟩ := source_add_correction_in_range k mode p s
  clamp255_of_range h0 h1

theorem corrected_self (k : KCfg) (mode : Bit) (s : Byte) : corrected k mode s s = s := by
  apply BitVec.eq_of_toNat_eq
  have h := corrected_toNat k mode s s
  rw [correction_self] at h
  omega

/-- Settles O9: by the sign of the difference, with the magnitude at most its size. -/
theorem correctionKeepsTheSign : Obligations.CorrectionKeepsTheSign := by
  intro k mode p s
  have hm := magnitude_le k mode (pixelDiff p s).natAbs
  have hd := pixelDiff_natAbs_le p s
  have habs := correction_natAbs k mode p s
  exact ⟨correction_of_nonneg, correction_of_neg, congrArg Nat.cast habs, Int.ofNat_le.2 hm, correction_between k mode p s,
    by omega, by omega⟩

/-- Settles O11: the sum lies between the two samples, so the clamp keeps it. -/
theorem clampNeverChangesTheSum : Obligations.ClampNeverChangesTheSum := by
  intro k p s mm mode h
  have ⟨h0, h1⟩ := source_add_correction_in_range k mode p s
  rw [pixelRule_of_open h]
  exact ⟨h0, h1, corrected_toNat k mode p s⟩

/-- Settles O10: the output is the source sample plus a correction between 0 and the difference. -/
theorem correctionNeverPassesThePrediction : Obligations.CorrectionNeverPassesThePrediction := by
  intro k p s mm mode h
  rw [pixelRule_of_open h]
  have hout := corrected_toNat k mode p s
  have hc := correction_between k mode p s
  rw [pixelDiff] at hc
  dsimp only
  constructor <;> intro hps <;> omega

/-- Settles O13: gated, the sample is copied; open, it is corrected by 0. -/
theorem zeroDifferenceChangesNothing : Obligations.ZeroDifferenceChangesNothing := by
  intro k s mm mode
  rw [← gated_eq_false]
  rcases h : gated k mm with _ | _
  · rw [pixelRule_of_open (gated_eq_false.1 h), corrected_self]
    simp
  · rw [pixelRule_of_gated h]
    simp

/-- Settles O15: the sign is opposite and the magnitude the same. -/
theorem oppositeDifferencesCorrectOppositely : Obligations.OppositeDifferencesCorrectOppositely := by
  intro k mode p s p' s' h
  have hd : pixelDiff p' s' = -pixelDiff p s := h
  rw [correction_eq_sign_mul, correction_eq_sign_mul, hd, Int.sign_neg, Int.natAbs_neg, neg_mul]

/-- R102: the two modes' corrections are ordered from 0 to the difference. -/
theorem correction_mono_mode {k : KCfg} (hk : k.Valid) (p s : Byte) :
    (0 ≤ correction k 0#1 p s ∧ correction k 0#1 p s ≤ correction k 1#1 p s ∧ correction k 1#1 p s ≤ pixelDiff p s) ∨
      (pixelDiff p s ≤ correction k 1#1 p s ∧ correction k 1#1 p s ≤ correction k 0#1 p s ∧ correction k 0#1 p s ≤ 0) := by
  have hmono := magnitude_mono_mode hk (pixelDiff p s).natAbs
  have hm := magnitude_le k 1#1 (pixelDiff p s).natAbs
  rcases lt_or_ge (pixelDiff p s) 0 with h | h
  · simp only [correction_of_neg h]
    omega
  · simp only [correction_of_nonneg h]
    omega

/-- Settles O14: gated, both modes copy; open, the corrections are ordered from 0 to the difference. -/
theorem aggressiveModeCorrectsAtLeastAsMuch : Obligations.AggressiveModeCorrectsAtLeastAsMuch := by
  intro k p s mm hk
  have hc := correction_mono_mode hk p s
  rw [pixelDiff] at hc
  refine ⟨by omega, ?_⟩
  rcases h : gated k mm with _ | _
  · have h0 := corrected_toNat k 0#1 p s
    have h1 := corrected_toNat k 1#1 p s
    rw [pixelRule_of_open (gated_eq_false.1 h), pixelRule_of_open (gated_eq_false.1 h), h0, h1]
    omega
  · rw [pixelRule_of_gated h, pixelRule_of_gated h]
    exact ⟨le_rfl, le_rfl⟩

end Sys2Proof.Machine
end

/-! The pixel step (R115), what leaves a BUSY instance alone (R116), every interleaving of pixel steps (R118), and what a
whole command does to a block (R119 to R121). -/
section

namespace Sys2Proof.Machine

open Sys2Proof

/-! ## Every interleaving -/

section

variable {s t : State} {n m count : Nat} {I : Inst} {g : CmdRegs} {e : Event}

theorem Performed.agenda (h : Performed e s t) : t.agenda = s.agenda := by cases h <;> rfl

@[simp] theorem Inst.afterPixels_handed (I : Inst) (e : Extent) (count : Nat) :
    (I.afterPixels e count).handed = I.handed := by
  rw [Inst.afterPixels]; split_ifs <;> rfl

/-- R118: `t` has come from `s` by pixel steps, the first `count` pixels of command `g` on instance `n`, which is `I` at
`(0, 0)` in `s`, among them: on the footprints of `g` memory is what these pixels alone leave. -/
structure State.Interleaved (s : State) (n : Nat) (I : Inst) (g : CmdRegs) (count : Nat) (t : State) : Prop where
  inv    : t.Inv
  params : t.params = s.params
  length : t.insts.length = s.insts.length
  inst   : t.insts[n]? = some (I.afterPixels g.extent count)
  mem    : ∀ a, g.Touches a → t.mem.read a = (pixelsMemory s.params.kernel g s.mem count).read a

theorem State.Interleaved.withAgenda (h : s.Interleaved n I g count t) (agenda : List Event) :
    s.Interleaved n I g count (t.withAgenda agenda) :=
  ⟨h.inv.of_eq rfl rfl rfl, h.params, h.length, h.inst, h.mem⟩

/-- R55, R164: a pixel step of another instance changes no byte of a command that is handed over, be it BUSY or DONE. -/
theorem Performed.read_of_handed {a : Nat} (hs : s.Inv) (hp : Performed (.pixel m) s t) (hnm : n ≠ m)
    (hI : s.insts[n]? = some I) (hg : g ∈ I.handed) (ha : g.Touches a) : t.mem.read a = s.mem.read a := by
  cases hp with
  | pixelIdle => rfl
  | pixel hJ hb hd hr hc =>
    have hdJ := ((hs.inst hJ).atPixel hb hd).handed
    exact read_pixelMemory_of_not_mayWrite hr hc fun hw => (hs.apart hI hJ hnm hg hdJ a).2 ⟨hw, ha⟩

/-- A step of another instance leaves the command where it is. -/
theorem State.Interleaved.other (h : s.Interleaved n I g count t) (hI : I.AtPixel s.params g) (hnm : n ≠ m) {u : State}
    (hu : pixelStep m t = .next u) : s.Interleaved n I g count u := by
  have hp := pixelStep_next hu
  refine ⟨hp.inv h.inv, hp.params.trans h.params, hp.length_insts.trans h.length,
    (hp.getElem?_of_pixel hnm).trans h.inst, fun a ha => ?_⟩
  have hg : g ∈ (I.afterPixels g.extent count).handed := (I.afterPixels_handed ..).symm ▸ hI.handed
  exact (hp.read_of_handed h.inv hnm h.inst hg ha).trans (h.mem a ha)

/-- Before the end of the block the instance is BUSY at the position whose number in raster order is `count`. -/
theorem Inst.AtPixel.afterPixels {p : Params} (hI : I.AtPixel p g) (hl : count < g.extent.w * g.extent.h) :
    (I.afterPixels g.extent count).AtPixel p g ∧ (I.afterPixels g.extent count).row.toNat = count / g.extent.w ∧
      (I.afterPixels g.extent count).col.toNat = count % g.extent.w := by
  obtain ⟨hr, hc⟩ := position_lt hl
  have hrow := toNat_counter (.inr hr)
  have hcol := toNat_counter (.inl hc)
  rw [Inst.afterPixels, if_pos hl]
  exact ⟨⟨hI.busy, hI.cmd, hI.handed, hI.inDomain, hrow.symm ▸ hr, hcol.symm ▸ hc⟩, hrow, hcol⟩

/-- Its own step before the end of the block takes the next pixel. -/
theorem State.Interleaved.own (hs : s.mem.wf) (h : s.Interleaved n I g count t) (hI : I.AtPixel s.params g)
    (hl : count < g.extent.w * g.extent.h) : ∃ u, pixelStep n t = .next u ∧ s.Interleaved n I g (count + 1) u := by
  obtain ⟨hat, hrow, hcol⟩ := (h.params.symm ▸ hI : I.AtPixel t.params g).afterPixels hl
  obtain ⟨hr, hc⟩ := position_lt hl
  have hstep := hat.pixelStep h.inst
  have hp := pixelStep_next hstep
  refine ⟨_, hstep, hp.inv h.inv, hp.params.trans h.params, hp.length_insts.trans h.length, ?_, fun a ha => ?_⟩
  · have hadv := Inst.advance_afterPixels (I := I) hr hc
    rw [Nat.div_add_mod'] at hadv
    rw [pixelNext_insts, getElem?_set_of_some h.inst, hrow, hcol, hadv]
  · have hres : pixelResultAt s.params.kernel g (count / g.extent.w) (count % g.extent.w) t.mem =
        pixelResultAt s.params.kernel g (count / g.extent.w) (count % g.extent.w)
          (pixelsMemory s.params.kernel g s.mem count) :=
      pixelResultAt_congr (h.mem _ (.inl (Footprint.addr_mem (f := g.pred) hr hc)))
        (h.mem _ (.inr (.inr (Footprint.addr_mem (f := g.src) hr hc))))
    simp only [pixelNext, hrow, hcol, h.params, pixelsMemory]
    exact read_pixelMemory_congr (pixelsMemory_wf hs count) h.inv.memWf hI.inDomain hr hc hres (h.mem a ha)

/-- At the end of the block the instance is DONE, and its step does nothing. -/
theorem State.Interleaved.own_done (h : s.Interleaved n I g (g.extent.w * g.extent.h) t) : pixelStep n t = .next t :=
  pixelStep_idle h.inst (by rw [Inst.afterPixels_all]; exact Inst.isBusy_eq_false.2 stDone_ne_stBusy)

/-- R117, R118: the pixel step of every instance completes, and that of `n` alone takes a pixel of the command, if one is
left. -/
theorem State.Interleaved.pixelStep (hs : s.mem.wf) (h : s.Interleaved n I g count t) (hI : I.AtPixel s.params g)
    (hl : count ≤ g.extent.w * g.extent.h) (hm : m < s.insts.length) : ∃ u, pixelStep m t = .next u ∧
      s.Interleaved n I g (min (count + [Event.pixel m].count (.pixel n)) (g.extent.w * g.extent.h)) u := by
  by_cases hnm : n = m
  · subst hnm
    rw [List.count_singleton_self]
    rcases hl.lt_or_eq with hlt | rfl
    · rw [min_eq_left hlt]
      exact h.own hs hI hlt
    · rw [min_eq_right (Nat.le_succ _)]
      exact ⟨t, h.own_done, h⟩
  · have hzero : [Event.pixel m].count (.pixel n) = 0 := by simp [Ne.symm hnm]
    rw [hzero, Nat.add_zero, min_eq_left hl]
    obtain ⟨u, hu⟩ := h.inv.exists_pixelStep (List.getElem?_eq_getElem (h.length ▸ hm))
    exact ⟨u, hu, h.other hI hnm hu⟩

/-- R118, R148: an agenda of pixel steps is performed whole, and takes as many pixels of the command as it holds steps of
its instance, up to the end of the block. -/
theorem State.Interleaved.run (hs : s.mem.wf) (hI : I.AtPixel s.params g) {agenda : List Event}
    (ha : ∀ e ∈ agenda, ∃ m, m < s.insts.length ∧ e = .pixel m) (h : s.Interleaved n I g count t)
    (hl : count ≤ g.extent.w * g.extent.h) (ht : t.agenda = agenda) : ∃ u, core.run agenda.length t = .next u ∧
      s.Interleaved n I g (min (count + agenda.count (.pixel n)) (g.extent.w * g.extent.h)) u := by
  induction agenda generalizing t count with
  | nil => exact ⟨t, rfl, by simpa [hl] using h⟩
  | cons e rest ih =>
    obtain ⟨⟨m, hm, rfl⟩, hrest⟩ := List.forall_mem_cons.1 ha
    obtain ⟨u, hu, h'⟩ := (h.withAgenda rest).pixelStep hs hI hl hm
    obtain ⟨v, hv, h''⟩ := ih hrest h' (min_le_right ..) (pixelStep_next hu).agenda
    have hcount : (Event.pixel m :: rest).count (.pixel n) =
        [Event.pixel m].count (.pixel n) + rest.count (.pixel n) := List.count_append (l₁ := [_])
    have hmin : min (count + (Event.pixel m :: rest).count (.pixel n)) (g.extent.w * g.extent.h) =
        min (min (count + [Event.pixel m].count (.pixel n)) (g.extent.w * g.extent.h) + rest.count (.pixel n))
          (g.extent.w * g.extent.h) := by omega
    exact ⟨v, (run_succ ((step_of_upcoming (State.upcoming_cons ht)).trans hu) _).trans hv, hmin ▸ h''⟩

end

/-- Settles O34: in every interleaving the footprints of the command end as its own pixels alone leave them, which is the
big step. -/
theorem everyInterleavingFiltersTheBlock : Obligations.EveryInterleavingFiltersTheBlock := by
  intro s n I g hs hI hb hg hrow hcol ha hcount
  have hat := (hs.inst hI).atPixel (Inst.isBusy_iff.2 hb) hg
  have hzero := State.afterPixels_zero hI ⟨Nat.zero_lt_of_lt hat.col, Nat.zero_lt_of_lt hat.row⟩ hrow hcol
  have hinst : s.insts[n]? = some (I.afterPixels g.extent 0) :=
    (congrArg (·.insts[n]?) hzero).symm.trans (getElem?_set_of_some hI)
  obtain ⟨u, hrun, hu⟩ := State.Interleaved.run hs.memWf hat ha ⟨hs, rfl, rfl, hinst, fun _ _ => rfl⟩ (Nat.zero_le _) rfl
  rw [Nat.zero_add, min_eq_right hcount] at hu
  have hbig := pixelsMemory_bigStep (k := s.params.kernel) hat.inDomain hs.memWf
  obtain ⟨hpo, hps, -⟩ := hat.inDomain.apart
  refine ⟨u, hrun, ⟨_, hu.inst, by rw [Inst.afterPixels_all]⟩, fun r hr c hc => ⟨?_, ?_, ?_⟩⟩
  · rw [hu.mem _ (.inr (.inl (Footprint.addr_mem (f := g.out) hr hc)))]
    exact hbig.out r hr c hc
  · rw [hu.mem _ (.inr (.inr (Footprint.addr_mem (f := g.src) hr hc)))]
    exact hbig.src r hr c hc
  · have hp := Footprint.addr_mem (f := g.pred) hr hc
    rw [hu.mem _ (.inl hp)]
    exact hbig.frame _ (hpo _ hp) (hps _ hp)

/-! ## The block after a whole command -/

section

variable {k : KCfg} {g : CmdRegs} {m m' : Memory}

/-- R95: the kernel leaves one value in both places. -/
theorem pixelRule_srcNext_eq_out (k : KCfg) (p s : Byte) (mm : Motion) (mode : Bit) :
    (pixelRule k p s mm mode).srcNext = (pixelRule k p s mm mode).out := by
  rw [pixelRule]
  split_ifs <;> rfl

/-- R88, R98: gated or not, the new sample lies between the source sample and the prediction sample. -/
theorem pixelRule_out_between (k : KCfg) (p s : Byte) (mm : Motion) (mode : Bit) :
    (s.toNat ≤ (pixelRule k p s mm mode).out.toNat ∧ (pixelRule k p s mm mode).out.toNat ≤ p.toNat) ∨
      (p.toNat ≤ (pixelRule k p s mm mode).out.toNat ∧ (pixelRule k p s mm mode).out.toNat ≤ s.toNat) := by
  cases h : gated k mm with
  | true =>
    rw [pixelRule_of_gated h]
    exact (Nat.le_total s.toNat p.toNat).imp (fun hp => ⟨le_rfl, hp⟩) fun hp => ⟨hp, le_rfl⟩
  | false =>
    obtain ⟨hup, hdown⟩ := correctionNeverPassesThePrediction k p s mm mode (gated_eq_false.1 h)
    exact (Nat.lt_or_ge p.toNat s.toNat).symm.imp hup hdown

/-- R45, R119: a gated command leaves every byte outside `output` as it was. -/
theorem BigStep.read_of_gated (h : BigStep k g m m') (hk : gated k g.mm = true) {a : Nat} (ha : a ∉ g.out.addresses) :
    m'.read a = m.read a := by
  by_cases hs : a ∈ g.src.addresses
  · obtain ⟨r, hr, c, hc, rfl⟩ := Footprint.mem_addresses.1 hs
    rw [h.src r hr c hc, pixelRule_of_gated hk]
  · exact h.frame a ha hs

end

/-- Settles O37: the call leaves the big step, in which each position holds the kernel's answer. -/
theorem wholeCommandMeetsTheBlockProperties : Obligations.WholeCommandMeetsTheBlockProperties := by
  intro i s n I hm ha hI hb hd hc
  have hrun := run_synchronousCall hI hb hd hc
  rw [State.withAgenda_self ha, ← ha] at hrun
  have hbig : BigStep s.params.kernel (cmdRegsOf i) s.mem (s.afterCall n (cmdRegsOf i)).mem := pixelsMemory_bigStep hd hm
  refine ⟨_, hrun, fun r hr c hc => ?_, fun a hw => hbig.frame a (mt .inl hw) (mt .inr hw),
    fun hk a => hbig.read_of_gated (decide_eq_true hk)⟩
  dsimp only
  rw [hbig.src r hr c hc, hbig.out r hr c hc]
  refine ⟨pixelRule_srcNext_eq_out .., fun hk => ?_, fun he => ?_, pixelRule_out_between ..⟩
  · rw [pixelRule_of_gated (decide_eq_true hk)]
  · rw [he]
    exact (zeroDifferenceChangesNothing ..).1

/-! ## Addresses -/

/-- R112: a sum of a base, a stride repeated and a column that fits in the word is computed without wrap-around. -/
theorem toNat_address {w : Nat} {base stride : BitVec w} {r c : Nat} (h : base.toNat + r * stride.toNat + c < 2 ^ w) :
    (base + BitVec.ofNat w r * stride + BitVec.ofNat w c).toNat = base.toNat + r * stride.toNat + c := by
  simp only [BitVec.toNat_add, BitVec.toNat_mul, BitVec.toNat_ofNat, Nat.mod_mul_mod, Nat.add_mod_mod, Nat.mod_add_mod]
  exact Nat.mod_eq_of_lt h

/-- Settles O18: the bytes of a position are accessible, so they lie in the address space, and then the 32-bit sums are the
integers. -/
theorem addressesAreExactAndNeverWrap : Obligations.AddressesAreExactAndNeverWrap := by
  intro p g r c hd hr hc
  have hacc := pixelAccessible_of_inDomain hd hr hc
  simp only [pixelAccessible, Bool.and_eq_true, Params.accessible_iff] at hacc
  obtain ⟨⟨⟨hp, -⟩, hs, -⟩, ho, -⟩ := hacc
  exact ⟨⟨rfl, rfl, rfl⟩, ⟨hp, ho, hs⟩, toNat_address hp, toNat_address ho, toNat_address hs⟩

/-! ## One pixel step -/

section

variable {I : Inst} {e : Extent} {r c : Nat}

theorem Inst.advance_of_col (h : c + 1 < e.w) : I.advance e r c = { I with col := BitVec.ofNat 5 (c + 1) } := if_pos h

theorem Inst.advance_of_row (hc : ¬c + 1 < e.w) (hr : r + 1 < e.h) :
    I.advance e r c = { I with col := 0#5, row := BitVec.ofNat 5 (r + 1) } := (if_neg hc).trans (if_pos hr)

theorem Inst.advance_of_last (hc : ¬c + 1 < e.w) (hr : ¬r + 1 < e.h) :
    I.advance e r c = { I with col := 0#5, row := 0#5, status := stDone } := (if_neg hc).trans (if_neg hr)

/-- R25: the advance keeps `ST`, but at the last position. -/
theorem Inst.advance_status : (I.advance e r c).status = I.status ∨
    ((I.advance e r c).status = stDone ∧ ¬r + 1 < e.h ∧ ¬c + 1 < e.w) := by
  by_cases hc : c + 1 < e.w
  · exact .inl (by rw [Inst.advance_of_col hc])
  · by_cases hr : r + 1 < e.h
    · exact .inl (by rw [Inst.advance_of_row hc hr])
    · exact .inr ⟨by rw [Inst.advance_of_last hc hr], hr, hc⟩

end

/-- Settles O28: within contract the step completes in `pixelNext`; its two bytes are distinct, and its counters fit. -/
theorem pixelStepWritesAndAdvances : Obligations.PixelStepWritesAndAdvances := by
  intro s n I g hm hI hb hg hd hr hc
  obtain ⟨-, -, hos⟩ := hd.apart
  have hne : g.out.addr I.row.toNat I.col.toNat ≠ g.src.addr I.row.toNat I.col.toNat := fun he =>
    hos _ (Footprint.addr_mem (f := g.out) hr hc) (he ▸ Footprint.addr_mem (f := g.src) hr hc)
  have hread := read_pixelMemory (k := s.params.kernel) hm hne
  refine ⟨_, _, pixelStep_of hI (Inst.isBusy_iff.2 hb) hg hr hc (pixelAccessible_of_inDomain hd hr hc),
    (hread _).trans (if_pos rfl), (hread _).trans ((if_neg hne.symm).trans (if_pos rfl)),
    fun a ho hs => (hread a).trans ((if_neg ho).trans (if_neg hs)), rfl, Inst.advance_cmd .., Inst.advance_offered ..,
    Inst.advance_handed .., fun hw => ?_, fun hw hh => ?_, fun hw hh => ?_, rfl, rfl, rfl, rfl⟩
  · rw [Inst.advance_of_col hw]
    exact ⟨toNat_counter (.inl hw), rfl, hb⟩
  · rw [Inst.advance_of_row hw hh]
    exact ⟨rfl, toNat_counter (.inr hh), hb⟩
  · rw [Inst.advance_of_last hw hh]
    exact ⟨rfl, rfl, rfl⟩

/-- Settles O48: the invariant keeps the counters in the block and the command within contract. -/
theorem busyInstanceCanAlwaysStep : Obligations.BusyInstanceCanAlwaysStep := fun _ _ _ hs hI _ => hs.exists_pixelStep hI

/-! ## A BUSY instance -/

section

variable {e : Event} {s t : State} {n : Nat} {I : Inst}

/-- R116, R146: no transition but its own pixel step changes the command, `ST` or a counter of a BUSY instance. -/
theorem Performed.keeps_busy (h : Performed e s t) (hI : s.insts[n]? = some I) (hb : I.isBusy = true)
    (he : e ≠ .pixel n) :
    ∃ J, t.insts[n]? = some J ∧ J.cmd = I.cmd ∧ J.status = I.status ∧ J.row = I.row ∧ J.col = I.col := by
  by_cases ho : e.owner = some n
  · cases h with
    | offer hI' | withdraw hI' | readStatus hI' =>
      obtain rfl := Option.some.inj ho
      obtain rfl := Option.some.inj (hI'.symm.trans hI)
      exact ⟨_, getElem?_set_of_some hI, rfl, rfl, rfl, rfl⟩
    | acceptNothing | acceptWaits => exact ⟨I, hI, rfl, rfl, rfl, rfl⟩
    | accept hI' _ _ hb' | reset hI' hb' =>
      obtain rfl := Option.some.inj ho
      obtain rfl := Option.some.inj (hI'.symm.trans hI)
      simp [hb] at hb'
    | pixelIdle | pixel => exact absurd (congrArg Event.pixel (Option.some.inj ho)) he
    | hostRead | hostWrite => cases ho
  · exact ⟨I, (h.getElem?_of_ne ho).trans hI, rfl, rfl, rfl, rfl⟩

/-- R115: the own pixel step of a BUSY instance is the raster advance, at a position of its command's block. -/
theorem Performed.pixel_busy (h : Performed (.pixel n) s t) (hI : s.insts[n]? = some I) (hb : I.isBusy = true) :
    ∃ g, I.cmd = some g ∧ I.row.toNat < g.extent.h ∧ I.col.toNat < g.extent.w ∧
      t.insts[n]? = some (I.advance g.extent I.row.toNat I.col.toNat) := by
  cases h with
  | pixelIdle hI' hb' =>
    obtain rfl := Option.some.inj (hI'.symm.trans hI)
    simp [hb] at hb'
  | pixel hI' _ hg hr hc =>
    obtain rfl := Option.some.inj (hI'.symm.trans hI)
    exact ⟨_, hg, hr, hc, getElem?_set_of_some hI⟩

end

/-- Settles O54: every other transition keeps the instance running, and its own pixel step is the raster advance. -/
theorem nothingSuspendsABusyInstance : Obligations.NothingSuspendsABusyInstance := by
  intro e s t n I h hI hb
  replace h := perform_next h
  by_cases he : e = .pixel n
  · subst he
    obtain ⟨g, hg, hr, hc, hJ⟩ := h.pixel_busy hI (Inst.isBusy_iff.2 hb)
    refine ⟨_, hJ, Inst.advance_cmd .., ?_, fun hn => absurd rfl hn⟩
    rcases I.advance_status (e := g.extent) with hs | ⟨hs, hlast⟩
    · exact .inl (hs.trans hb)
    · exact .inr ⟨hs, rfl, g, hg, by omega, by omega⟩
  · obtain ⟨J, hJ, hcmd, hs, hcounters⟩ := h.keeps_busy hI (Inst.isBusy_iff.2 hb) he
    exact ⟨J, hJ, hcmd, .inl (hs.trans hb), fun _ => hcounters⟩

/-! ## What the step takes -/

section

variable {s : State} {n : Nat}

theorem State.enabled_of_busy (h : s.firstBusy = some n) : s.enabled = some (.pixel n) := by simp [State.enabled, h]

theorem State.enabled_of_waiting (hb : s.firstBusy = none) (hw : s.firstWaiting = some n) :
    s.enabled = some (.accept n) := by simp [State.enabled, hb, hw]

/-- With an empty agenda the machine takes what is enabled. -/
theorem step_of_enabled {e : Event} (ha : s.agenda = []) (h : s.enabled = some e) : step s = perform e s :=
  step_of_upcoming ((State.upcoming_nil ha).trans (by rw [h]))

/-- R30: where nothing waits the accept transition is not enabled. -/
theorem acceptOffer_nothing {I : Inst} (hI : s.insts[n]? = some I) (ho : I.offered = none) :
    acceptOffer n s = .next s := by simp [acceptOffer, fetchCommand, hI, ho]

end

/-- Settles O27: the agenda's next entry is upcoming, or what is enabled is. -/
theorem stepFollowsTheAgendaThenTheMachine : Obligations.StepFollowsTheAgendaThenTheMachine := fun _ =>
  ⟨fun _ _ ha => step_of_upcoming (State.upcoming_cons ha), fun ha _ hb => step_of_enabled ha (State.enabled_of_busy hb),
    fun ha hb _ hw => step_of_enabled ha (State.enabled_of_waiting hb hw), fun ha h =>
      step_of_enabled_none ha (State.enabled_eq_none fun I hI => (h I hI).imp_left Inst.isBusy_eq_false.2)⟩

/-- Settles O30: an idle instance's pixel step and an accept where nothing waits answer the state itself. -/
theorem transitionNotEnabledChangesNothing : Obligations.TransitionNotEnabledChangesNothing := fun _ _ _ hI =>
  ⟨fun hb => pixelStep_idle hI (Inst.isBusy_eq_false.2 hb), acceptOffer_nothing hI⟩

end Sys2Proof.Machine
end

/-! A command on its own (R130, R131): accepted with no other instance BUSY and nothing on the agenda, it takes its block to
the end (R118), and the chroma command filters the corner of the luma command's block (R132). -/
section

namespace Sys2Proof.Machine

open Sys2Proof

/-! ## Left to itself -/

section

variable {s : State} {n : Nat} {I : Inst} {g : CmdRegs}

/-- Before the end of the block the instance stays BUSY. -/
theorem Inst.isBusy_afterPixels {e : Extent} {count : Nat} (hb : I.status = stBusy) (hl : count < e.w * e.h) :
    (I.afterPixels e count).isBusy = true := by
  rw [Inst.afterPixels, if_pos hl]
  exact Inst.isBusy_iff.2 hb

/-- The one BUSY instance is the first. -/
theorem State.firstBusy_of_only (hI : s.insts[n]? = some I) (hb : I.isBusy = true)
    (ho : ∀ m J, m ≠ n → s.insts[m]? = some J → J.isBusy = false) : s.firstBusy = some n := by
  obtain ⟨hn, rfl⟩ := List.getElem?_eq_some_iff.1 hI
  refine List.findIdx?_eq_some_iff_getElem.2 ⟨hn, hb, fun m hm => ?_⟩
  exact Bool.eq_false_iff.1 (ho m _ hm.ne (List.getElem?_eq_getElem (hm.trans hn)))

/-- R117, R118: with an empty agenda and no other instance BUSY, the machine takes the pixels of the command one after the
other. -/
theorem run_alone (ha : s.agenda = []) (hI : s.insts[n]? = some I) (hb : I.status = stBusy) (hg : I.cmd = some g)
    (ho : ∀ m J, m ≠ n → s.insts[m]? = some J → J.isBusy = false) (hd : g.InDomain s.params) {k count : Nat}
    (hl : count + k ≤ g.extent.w * g.extent.h) :
    core.run k (s.afterPixels n I g count) = .next (s.afterPixels n I g (count + k)) := by
  induction k generalizing count with
  | zero => rfl
  | succ k ih =>
    have hlt : count < g.extent.w * g.extent.h := by omega
    have hfirst : (s.afterPixels n I g count).firstBusy = some n :=
      State.firstBusy_of_only (getElem?_set_of_some hI) (Inst.isBusy_afterPixels hb hlt) fun m J hm hJ =>
        ho m J hm ((List.getElem?_set_ne hm.symm).symm.trans hJ)
    have hstep : step (s.afterPixels n I g count) = .next (s.afterPixels n I g (count + 1)) :=
      (step_of_enabled (s := s.afterPixels n I g count) ha (State.enabled_of_busy hfirst)).trans
        (pixelStep_afterPixels hI hb hg hd hlt)
    rw [run_succ hstep, ih (by omega), Nat.add_assoc, Nat.add_comm 1]

/-- The state in which the command `g` on instance `n`, which was `I`, has come to its end (R25, R118). -/
def State.filtered (s : State) (n : Nat) (I : Inst) (g : CmdRegs) : State :=
  { s with
    mem := pixelsMemory s.params.kernel g s.mem (g.extent.w * g.extent.h)
    insts := s.insts.set n { I.accepted g with status := stDone } }

/-- R118, R130, R131: a command that was just accepted, left to itself, comes to its end in `W·H` steps. -/
theorem run_accepted_alone (ha : s.agenda = []) (hI : s.insts[n]? = some I) (hb : ∀ J ∈ s.insts, J.status ≠ stBusy)
    (hg : g.opc = 0x01#8 ∨ g.opc = 0x02#8) (hd : g.InDomain s.params) :
    core.run (g.extent.w * g.extent.h) (s.setInst n (I.accepted g)) = .next (s.filtered n I g) := by
  have hinst : (s.setInst n (I.accepted g)).insts[n]? = some (I.accepted g) := getElem?_set_of_some hI
  have hothers (m : Nat) (J : Inst) (hm : m ≠ n) (hJ : (s.setInst n (I.accepted g)).insts[m]? = some J) :
      J.isBusy = false :=
    Inst.isBusy_eq_false.2 (hb J (List.mem_of_getElem? ((List.getElem?_set_ne hm.symm).symm.trans hJ)))
  have hrun := run_alone (s := s.setInst n (I.accepted g)) ha hinst rfl rfl hothers hd
    (k := g.extent.w * g.extent.h) (count := 0) (by omega)
  rw [State.afterPixels_zero hinst (CmdRegs.extent_pos hg) rfl rfl, Nat.zero_add] at hrun
  rw [hrun, State.afterPixels, Inst.afterPixels_all, State.setInst_insts, List.set_set]
  rfl

/-- R118: accept and `W·H` steps of a command within contract give the big step, whichever of the two commands it is. -/
theorem exec_filters_the_block (i : Instr) (hm : s.mem.wf) (ha : s.agenda = []) (hI : s.insts[s.sel]? = some I)
    (hb : ∀ J ∈ s.insts, J.status ≠ stBusy) (hd : (cmdRegsOf i).InDomain s.params) (hc : s.ClearFor s.sel (cmdRegsOf i)) :
    ∃ t u J, exec i s = .next t ∧ core.run ((cmdRegsOf i).extent.w * (cmdRegsOf i).extent.h) t = .next u ∧
      u.insts = s.insts.set s.sel J ∧ J.status = stDone ∧ J.row = 0#5 ∧ J.col = 0#5 ∧ J.cmd = some (cmdRegsOf i) ∧
      BigStep s.params.kernel (cmdRegsOf i) s.mem u.mem ∧ u.mem.wf ∧ u.params = s.params := by
  have hidle := Inst.isBusy_eq_false.2 (hb I (List.mem_of_getElem? hI))
  exact ⟨_, _, _, (exec_eq i s).trans (acceptCommand_of hI hidle hd hc),
    run_accepted_alone ha hI hb (cmdRegsOf_opc i) hd, rfl, rfl, rfl, rfl, rfl, pixelsMemory_bigStep hd hm,
    pixelsMemory_wf hm _, rfl⟩

end

/-- Settles O31: `FLT.LUMA`, whose block has 16·16 positions. -/
theorem fltLumaFiltersTheBlock : Obligations.FltLumaFiltersTheBlock :=
  fun mode pb ps ob os sb ss mm _ _ => exec_filters_the_block (.fltLuma mode pb ps ob os sb ss mm)

/-- Settles O32: `FLT.CHROMA`, whose block has 8·8 positions. -/
theorem fltChromaFiltersTheBlock : Obligations.FltChromaFiltersTheBlock :=
  fun mode pb ps ob os sb ss mm _ _ => exec_filters_the_block (.fltChroma mode pb ps ob os sb ss mm)

/-! ## The corner of the block -/

/-- R132: of two commands that differ in their opcode alone, the one with the smaller block leaves in the bytes it may write
what the other leaves there. -/
theorem BigStep.read_of_smaller_extent {k : KCfg} {g : CmdRegs} {opc : BitVec 8} {m m₁ m₂ : Memory}
    (hw : (extentOf opc).w ≤ g.extent.w) (hh : (extentOf opc).h ≤ g.extent.h) (h₁ : BigStep k { g with opc } m m₁)
    (h₂ : BigStep k g m m₂) {a : Nat} (ha : CmdRegs.MayWrite { g with opc } a) : m₁.read a = m₂.read a := by
  rcases ha with ha | ha <;> obtain ⟨r, hr, c, hc, rfl⟩ := Footprint.mem_addresses.1 ha
  · exact (h₁.out r hr c hc).trans (h₂.out r (hr.trans_le hh) c (hc.trans_le hw)).symm
  · exact (h₁.src r hr c hc).trans (h₂.src r (hr.trans_le hh) c (hc.trans_le hw)).symm

/-- Settles O38: both calls end with their big step on the same memory, and the 8×8 block is a part of the 16×16 one. -/
theorem chromaIsLumaOnTheCorner : Obligations.ChromaIsLumaOnTheCorner := by
  intro mode pb ps ob os sb ss mm s n I hm hI hb l k hdl hdk hcl hck
  refine ⟨_, _, run_synchronousCall hI hb hdl hcl, run_synchronousCall hI hb hdk hck, fun a ha => ?_⟩
  have hw : Config.chroma.w ≤ Config.luma.w := by decide
  have hh : Config.chroma.h ≤ Config.luma.h := by decide
  exact BigStep.read_of_smaller_extent (g := cmdRegsOf l) (opc := 0x02#8) hw hh (pixelsMemory_bigStep hdk hm)
    (pixelsMemory_bigStep hdl hm) ha

end Sys2Proof.Machine
end

/-! The refusal of a command outside its contract (R142 to R144), and the machine left to itself (R140). -/
section

namespace Sys2Proof.Machine

open Sys2Proof

/-! ## The checks, in the words of R142 -/

section

variable {c d : CmdRegs}

theorem Footprint.intersects_iff {f g : Footprint} : f.intersects g = true ↔ ∃ a, a ∈ f.addresses ∧ a ∈ g.addresses := by
  simp only [Footprint.intersects, List.any_eq_true, Footprint.contains_iff]

/-- The check of CV2 says what R142 says. -/
theorem CmdRegs.strideShort_iff :
    c.strideShort = true ↔ c.ps.toNat < c.extent.w ∨ c.os.toNat < c.extent.w ∨ c.ss.toNat < c.extent.w := by
  simp only [CmdRegs.strideShort, Bool.or_eq_true, decide_eq_true_eq, or_assoc]

/-- The check of CV3 for one buffer. -/
theorem Footprint.passesTop_iff {f : Footprint} :
    f.passesTop = true ↔ 2 ^ 32 ≤ f.base + (f.extent.h - 1) * f.stride + (f.extent.w - 1) := decide_eq_true_iff

/-- The check of CV3 says what R142 says. -/
theorem CmdRegs.passesTop_iff : c.passesTop = true ↔
    2 ^ 32 ≤ c.pb.toNat + (c.extent.h - 1) * c.ps.toNat + (c.extent.w - 1) ∨
      2 ^ 32 ≤ c.ob.toNat + (c.extent.h - 1) * c.os.toNat + (c.extent.w - 1) ∨
        2 ^ 32 ≤ c.sb.toNat + (c.extent.h - 1) * c.ss.toNat + (c.extent.w - 1) := by
  rw [CmdRegs.passesTop, Bool.or_eq_true, Bool.or_eq_true, or_assoc]
  exact or_congr Footprint.passesTop_iff (or_congr Footprint.passesTop_iff Footprint.passesTop_iff)

/-- The check of CV4 says what R142 says. -/
theorem CmdRegs.selfOverlap_iff : c.selfOverlap = true ↔
    ∃ a, (a ∈ c.pred.addresses ∧ a ∈ c.out.addresses) ∨ (a ∈ c.pred.addresses ∧ a ∈ c.src.addresses) ∨
      (a ∈ c.out.addresses ∧ a ∈ c.src.addresses) := by
  simp only [CmdRegs.selfOverlap, Bool.or_eq_true, Footprint.intersects_iff, exists_or, or_assoc]

/-- The check of CV5 says what R142 says. -/
theorem CmdRegs.notAllocated_iff {p : Params} : c.notAllocated p = true ↔ ∃ a, c.Touches a ∧ p.allocated a = false := by
  simp only [CmdRegs.notAllocated, Bool.or_eq_true, List.any_eq_true, Bool.not_eq_true', CmdRegs.Touches, or_and_right,
    exists_or, or_assoc]

/-- R55: two commands conflict in a byte that one may write and the other touches. -/
theorem CmdRegs.conflicts_iff :
    c.conflicts d = true ↔ ∃ a, (c.MayWrite a ∧ d.Touches a) ∨ (d.MayWrite a ∧ c.Touches a) := by
  rw [← Bool.not_eq_false, CmdRegs.conflicts_eq_false]
  simp only [CmdRegs.Apart, not_forall, ← not_or, not_not]

/-- The check of CV7 says what R142 says. -/
theorem State.races_iff {s : State} {n : Nat} : s.races n c = true ↔
    ∃ (m : Nat) (J : Inst) (d : CmdRegs), m ≠ n ∧ s.insts[m]? = some J ∧ d ∈ J.held ∧
      ∃ a, (d.MayWrite a ∧ c.Touches a) ∨ (c.MayWrite a ∧ d.Touches a) := by
  simp only [← CmdRegs.conflicts_iff, ← Bool.not_eq_false (s.races n c), State.races_eq_false, State.ClearFor,
    ← CmdRegs.conflicts_eq_false, not_forall, Bool.not_eq_false, exists_prop]
  constructor
  · rintro ⟨m, J, hm, hJ, d, hd, h⟩; exact ⟨m, J, d, hm, hJ, hd, h⟩
  · rintro ⟨m, J, d, hm, hJ, hd, h⟩; exact ⟨m, J, hm, hJ, d, hd, h⟩

end

/-! ## Refusals of an accept -/

section

variable {s : State} {n : Nat} {I : Inst} {f : Fault}

/-- R143: an instance that is not BUSY refuses a command for the breach of its contract. -/
theorem exec_refused {i : Instr} {r : Refusal} (hI : s.insts[s.sel]? = some I) (hb : I.isBusy = false)
    (hr : contractBreach s s.sel (cmdRegsOf i) = some r) : exec i s = .refused r := by
  simp [exec_eq, acceptCommand, State.withInst_of hI, hb, hr]

/-- R140: an existing instance waits, refuses or accepts. -/
theorem exec_ne_fault (i : Instr) (hI : s.insts[s.sel]? = some I) : exec i s ≠ .fault f := by
  cases hb : I.isBusy with
  | true => simp [exec_busy hI hb]
  | false =>
    cases hr : contractBreach s s.sel (cmdRegsOf i) with
    | some r => simp [exec_refused hI hb hr]
    | none =>
      obtain ⟨hd, hc⟩ := contractBreach_eq_none.1 hr
      simp [exec_eq, acceptCommand_of hI hb hd hc]

/-- R140: the accept transition of an existing instance does nothing, refuses or executes a command there. -/
theorem acceptOffer_ne_fault (hI : s.insts[n]? = some I) : acceptOffer n s ≠ .fault f := by
  cases ho : I.offered with
  | none => simp [acceptOffer_nothing hI ho]
  | some d =>
    cases hd : decode d with
    | error e => simp [acceptOffer_of_error hI ho hd]
    | ok i =>
      rw [acceptOffer_of hI ho hd]
      exact exec_ne_fault (s := s.select n) i hI

end

/-- Settles O24: each clause of R142 is one of the checks, which are made in this order. -/
theorem commandOutsideContractIsRefusedInOrder : Obligations.CommandOutsideContractIsRefusedInOrder := by
  intro i s I hI hb g w h cv2 cv3 cv4 cv5 cv7
  have hcv2 : g.strideShort = true ↔ cv2 := CmdRegs.strideShort_iff
  have hcv3 : g.passesTop = true ↔ cv3 := CmdRegs.passesTop_iff
  have hcv4 : g.selfOverlap = true ↔ cv4 := CmdRegs.selfOverlap_iff
  have hcv5 : g.notAllocated s.params = true ↔ cv5 := CmdRegs.notAllocated_iff
  have hcv7 : s.races s.sel g = true ↔ cv7 := State.races_iff
  have hex {r : Refusal} : contractBreach s s.sel g = some r → exec i s = .refused r :=
    exec_refused hI (Inst.isBusy_eq_false.2 hb)
  refine ⟨fun y2 => hex ?_, fun n2 y3 => hex ?_, fun n2 n3 y4 => hex ?_, fun n2 n3 n4 y5 => hex ?_,
    fun n2 n3 n4 n5 y7 => hex ?_⟩
  · rw [contractBreach, if_pos (hcv2.2 y2)]
  · rw [contractBreach, if_neg (mt hcv2.1 n2), if_pos (hcv3.2 y3)]
  · rw [contractBreach, if_neg (mt hcv2.1 n2), if_neg (mt hcv3.1 n3), if_pos (hcv4.2 y4)]
  · rw [contractBreach, if_neg (mt hcv2.1 n2), if_neg (mt hcv3.1 n3), if_neg (mt hcv4.1 n4), if_pos (hcv5.2 y5)]
  · rw [contractBreach, if_neg (mt hcv2.1 n2), if_neg (mt hcv3.1 n3), if_neg (mt hcv4.1 n4), if_neg (mt hcv5.1 n5),
      if_pos (hcv7.2 y7)]

/-! ## The machine left to itself -/

section

variable {s : State} {n : Nat}

theorem State.exists_of_firstBusy (h : s.firstBusy = some n) : ∃ I, s.insts[n]? = some I ∧ I.isBusy = true := by
  obtain ⟨hn, hb, -⟩ := List.findIdx?_eq_some_iff_getElem.1 h
  exact ⟨_, List.getElem?_eq_getElem hn, hb⟩

theorem State.exists_of_firstWaiting (h : s.firstWaiting = some n) :
    ∃ I, s.insts[n]? = some I ∧ I.offered.isSome = true := by
  obtain ⟨hn, ho, -⟩ := List.findIdx?_eq_some_iff_getElem.1 h
  exact ⟨_, List.getElem?_eq_getElem hn, ho⟩

/-- R117, R140: with an empty agenda the step completes, unless it is the accept of a descriptor that waits. -/
theorem State.Inv.step_alone (hs : s.Inv) (ha : s.agenda = []) : (∃ t, step s = .next t) ∨
    ∃ n I, s.insts[n]? = some I ∧ I.offered.isSome = true ∧ step s = acceptOffer n s := by
  cases hb : s.firstBusy with
  | some n =>
    obtain ⟨I, hI, -⟩ := State.exists_of_firstBusy hb
    obtain ⟨t, ht⟩ := hs.exists_pixelStep hI
    exact .inl ⟨t, (step_of_enabled ha (State.enabled_of_busy hb)).trans ht⟩
  | none =>
    cases hw : s.firstWaiting with
    | some n =>
      obtain ⟨I, hI, ho⟩ := State.exists_of_firstWaiting hw
      exact .inr ⟨n, I, hI, ho, step_of_enabled ha (State.enabled_of_waiting hb hw)⟩
    | none => exact .inl ⟨s, step_of_enabled_none ha (by simp [State.enabled, hb, hw])⟩

end

/-- Settles O49: the step completes or is an accept, which at an existing instance is no fault. -/
theorem machineLeftToItselfNeverFaults : Obligations.MachineLeftToItselfNeverFaults := by
  intro s hs ha
  rcases hs.step_alone ha with ⟨t, ht⟩ | ⟨n, I, hI, ho, hstep⟩
  · exact ⟨fun f => by simp [ht], fun _ => ⟨t, ht⟩⟩
  · refine ⟨fun f => hstep ▸ acceptOffer_ne_fault hI, fun hnone => ?_⟩
    simp [hnone I (List.mem_of_getElem? hI)] at ho

end Sys2Proof.Machine
end

/-! The host's side (R54, R164): what an instance holds and the refusal of an access to it (R142, CV6), the reset of an
instance (R160, R161), and a run that is over (R171). -/
section

namespace Sys2Proof.Machine

open Sys2Proof

/-! ## What is held -/

section

variable {s : State} {n : Nat} {I : Inst} {g : CmdRegs} {a : Address}

/-- R30: what waits is the command of the descriptor on the interface. -/
theorem Inst.mem_waiting_iff : g ∈ I.waiting ↔ ∃ d i, I.offered = some d ∧ decode d = .ok i ∧ g = cmdRegsOf i := by
  cases ho : I.offered with
  | none => simp [Inst.waiting, ho]
  | some d => cases hd : decode d <;> simp [Inst.waiting, ho, hd]

/-- R26: what runs is the command in the registers while BUSY. -/
theorem Inst.mem_running_iff : g ∈ I.running ↔ I.status = stBusy ∧ I.cmd = some g := by
  cases hb : I.isBusy with
  | true => simp [Inst.running, hb, Inst.isBusy_iff.1 hb]
  | false => simp [Inst.running, hb, Inst.isBusy_eq_false.1 hb]

/-- R164: an instance holds what waits, what runs and what is accepted with its DONE unread. -/
theorem Inst.mem_held_iff : g ∈ I.held ↔
    (∃ d i, I.offered = some d ∧ decode d = .ok i ∧ g = cmdRegsOf i) ∨ (I.status = stBusy ∧ I.cmd = some g) ∨
      g ∈ I.handed := by
  rw [Inst.held, List.mem_append, List.mem_append, Inst.mem_waiting_iff, Inst.mem_running_iff, or_assoc]

/-- R54: a byte of a command that an instance holds is handed over. -/
theorem State.isHeld_of_touches {x : Nat} (hI : s.insts[n]? = some I) (hg : g ∈ I.held) (hx : g.Touches x) :
    s.isHeld x = true := by
  rw [← Bool.not_eq_false, State.isHeld_eq_false]
  exact fun h => h I (List.mem_of_getElem? hI) g hg hx

theorem hostRead_refused (h : s.isHeld a.toNat = true) : hostRead a s = .refused .cv6 := if_pos h

theorem hostWrite_refused (h : s.isHeld a.toNat = true) (v : Byte) : hostWrite a v s = .refused .cv6 := if_pos h

end

/-- Settles O41: in each of the three ways the instance holds the command, so the check of CV6 fires. -/
theorem hostAccessToAHandedOverByteIsRefused : Obligations.HostAccessToAHandedOverByteIsRefused := by
  intro s n I g a hI hways ha
  have hheld : s.isHeld a.toNat = true := State.isHeld_of_touches hI (Inst.mem_held_iff.2 hways) ha
  exact ⟨hostRead_refused hheld, hostWrite_refused hheld⟩

/-! ## Reset of an instance -/

section

variable {s : State} {n : Nat} {I : Inst}

theorem resetInst_refused (hI : s.insts[n]? = some I) (hb : I.isBusy = true) :
    resetInst n s = .refused .rstBusy := (State.withInst_of hI _).trans (if_pos hb)

theorem resetInst_of (hI : s.insts[n]? = some I) (hb : I.isBusy = false) :
    resetInst n s = .next (s.setInst n { Inst.reset with offered := I.offered, handed := I.handed }) :=
  (State.withInst_of hI _).trans (if_neg (ne_true_of_eq_false hb))

end

/-- Settles O40, by the two cases of a reset. -/
theorem resetIsForInstancesThatAreNotBusy : Obligations.ResetIsForInstancesThatAreNotBusy := fun _ _ _ hI =>
  ⟨fun hb => resetInst_refused hI (Inst.isBusy_iff.2 hb), fun hb => resetInst_of hI (Inst.isBusy_eq_false.2 hb)⟩

/-! ## A run that is over -/

/-- R171: an instance that is IDLE or DONE is not BUSY. -/
theorem Inst.isBusy_of_idle_or_done {I : Inst} (h : I.status = stIdle ∨ I.status = stDone) : I.isBusy = false := by
  rw [Inst.isBusy_eq_false]
  rcases h with h | h
  · exact h ▸ stBusy_ne_stIdle.symm
  · exact h ▸ stDone_ne_stBusy

/-- Settles O55: with nothing BUSY and nothing waiting no transition is enabled. -/
theorem finishedRunStaysFinished : Obligations.FinishedRunStaysFinished := by
  rintro s ⟨hagenda, hinsts⟩
  refine step_of_enabled_none hagenda (State.enabled_eq_none fun I hI => ?_)
  obtain ⟨hoffered, hstatus⟩ := hinsts I hI
  exact ⟨Inst.isBusy_of_idle_or_done hstatus, hoffered⟩

end Sys2Proof.Machine
end
